-- ==== Sys2Proof/Word.lean ====
section
/-! DEFINITION. The word types of the codec core (00_scope.md R9, R11): a byte of host memory or one
sample, a 32-bit interface register, and the 64-bit data registers DIN and DOUT. -/

namespace Sys2Proof

/-- One byte: a PCM sample, a code byte or a byte of host memory (R54, R80, R81). -/
abbrev Byte := BitVec 8

/-- One 32-bit interface register or command word (R9 `REG_W`, R28). -/
abbrev Word := BitVec 32

/-- The 64-bit data input or output, `{HI, LO}` (R31, R32). -/
abbrev DWord := BitVec 64

end Sys2Proof
end

