-- ==== Sys2Proof/Config.lean ====
section
/-! DEFINITION. What an implementation or a platform fixes (00_scope.md R9, 92_eei_decisions.md OPEN
parameters). The numeric constants of the two variants are a record of the type `Consts`; their values stand
in `Sys2Proof.Machine.consts` (D32: one configuration record). `Backed` is a field of State, because it is
plain data that a statement quantifies over. -/

namespace Sys2Proof

/-- The four constants a variant selects (R18, D32), each a mathematical integer (R11); `respPrec` is a shift
amount, so a natural number. -/
structure Consts where
  respInc : Int
  respDec : Int
  respPrec : Nat
  lpfStrength : Int
  deriving DecidableEq, Repr

/-- `ADDR_W`, the host address width (R9, D8: 32 is the spec's value). -/
def Config.addrWidth : Nat := 32

/-- `2^ADDR_W`: the number of host memory bytes, one above the highest address (R54). -/
def Config.memTop : Nat := 2 ^ Config.addrWidth

/-- `CODEC_BASE`, the host address of the register block: OPEN (R28, D25), so it has no value here. Nothing a
step does depends on it; see log entry 11. -/
opaque Config.codecBase : Nat

/-- What a byte of host memory that nothing has written reads as: DESIGN CHOICE (log entry 4, unsafe). The spec
says only "unspecified bytes" (R173). -/
def Config.unlistedByte : Byte := 0#8

end Sys2Proof
end

