-- ==== Sys2Proof/Syntax.lean ====
section
/-! DEFINITION. The commands of the opcode table (30_encoding.md R73; opcode_table.json): one constructor per
row. Command words that name no row are no constructor: the decoder rejects them by name (log entry 9). -/

namespace Sys2Proof

/-- The two codec variants (R3, R18). -/
inductive Variant where
  | legacy
  | modern
  deriving DecidableEq, Repr

/-- The commands (R73). Their data operands are registers, not part of the word (R71). -/
inductive Instr where
  /-- INIT: construct a context of the variant that V selects (R90). -/
  | init (variant : Variant)
  /-- ENC8: encode one group from DIN (R113). -/
  | enc8
  /-- DEC8: decode one code byte from DIN (R126). -/
  | dec8
  /-- ENCB: encode a buffer (R116). -/
  | encb
  /-- DECB: decode a buffer (R129). -/
  | decb
  deriving DecidableEq, Repr

/-- The three fields of a command word (R72), whatever their values. -/
structure CommandFields where
  op : BitVec 4
  v : BitVec 1
  rsvd : BitVec 27
  deriving DecidableEq, Repr

end Sys2Proof
end

