-- ==== Sys2Proof/WellFormed.lean ====
section
/-! DEFINITION. Which field values make a legal command word (30_encoding.md R76), one check a reason, and which
instructions are well formed. -/

namespace Sys2Proof

/-- RSVD must be zero (R72, R76). -/
def CommandFields.reservedClear (f : CommandFields) : Bool :=
  f.rsvd == 0#27

/-- OP must name an operation: 0x0 and 0x6 to 0xF are reserved (R73, R76). -/
def CommandFields.opAssigned (f : CommandFields) : Bool :=
  f.op == 1#4 || f.op == 2#4 || f.op == 3#4 || f.op == 4#4 || f.op == 5#4

/-- V is INIT's alone: every other operation needs V = 0 (R74, R76). -/
def CommandFields.variantAllowed (f : CommandFields) : Bool :=
  f.op == 1#4 || f.v == 0#1

/-- The fields of a legal command word: none of R76's three conditions holds. -/
def CommandFields.wellFormed (f : CommandFields) : Bool :=
  f.reservedClear && f.opAssigned && f.variantAllowed

/-- Well-formed instructions. The one operand in a command word is INIT's variant, and both its values are legal
(R74), so every term of `Instr` is well formed; what can be ill formed is a word's fields. -/
def Instr.wellFormed : Instr → Bool
  | .init _ => true
  | .enc8 => true
  | .dec8 => true
  | .encb => true
  | .decb => true

end Sys2Proof
end

