-- ==== Sys2Proof/Decode.lean ====
section
/-! DEFINITION. The decoder of the command word, total on every 32-bit word and rejecting by name
(30_encoding.md R75, R76), and the encoder, written from the same table (R73). -/

namespace Sys2Proof

/-- Why a command word is illegal (R76). Each of the three executes as INVALID_COMMAND (R134). -/
inductive DecodeError where
  /-- RSVD ≠ 0. -/
  | reservedBits
  /-- OP is 0x0 or 0x6 to 0xF. -/
  | reservedOp
  /-- V = 1 on ENC8, DEC8, ENCB or DECB. -/
  | variantBit
  deriving DecidableEq, Repr

/-- Split a command word into its fields: OP 3:0, V 4, RSVD 31:5 (R72). -/
def CommandFields.ofWord (w : Word) : CommandFields :=
  { op := w.extractLsb' 0 4, v := w.extractLsb' 4 1, rsvd := w.extractLsb' 5 27 }

/-- Join the fields into a word, RSVD highest and OP lowest (R72). -/
def CommandFields.toWord (f : CommandFields) : Word :=
  f.rsvd ++ (f.v ++ f.op)

/-- V = 1 selects Legacy, V = 0 Modern (R74, D6). -/
def variantOfBit (v : BitVec 1) : Variant :=
  if v = 1#1 then .legacy else .modern

/-- The V bit of a variant (R74, D6). -/
def bitOfVariant : Variant → BitVec 1
  | .legacy => 1#1
  | .modern => 0#1

/-- An operation other than INIT needs V = 0 (R74, R76). -/
def decodePlain (v : BitVec 1) (i : Instr) : Except DecodeError Instr :=
  if v = 0#1 then .ok i else .error .variantBit

/-- R75 on the fields of a word, in its order: RSVD first, then OP, then V. -/
def decodeFields (f : CommandFields) : Except DecodeError Instr :=
  if f.rsvd ≠ 0#27 then .error .reservedBits
  else if f.op = 1#4 then .ok (.init (variantOfBit f.v))
  else if f.op = 2#4 then decodePlain f.v .enc8
  else if f.op = 3#4 then decodePlain f.v .dec8
  else if f.op = 4#4 then decodePlain f.v .encb
  else if f.op = 5#4 then decodePlain f.v .decb
  else .error .reservedOp

/-- The decoder of R75. -/
def decode (w : Word) : Except DecodeError Instr :=
  decodeFields (CommandFields.ofWord w)

/-- What a write of CMD stands for (R75, R89): one of the operations of `Instr`, or an INVALID_COMMAND word. `Instr` has
the opcode table's rows alone, so R89's further constructor stands here (log entry 9). -/
inductive Command where
  /-- A legal word's operation. -/
  | operation (i : Instr)
  /-- An INVALID_COMMAND word, with the condition of R76 that it meets. -/
  | invalidCommand (reason : DecodeError)
  deriving DecidableEq, Repr

/-- The decoder of R75, total: every word is a command, INVALID_COMMAND included. -/
def commandOfWord (w : Word) : Command :=
  match decode w with
  | .ok i => .operation i
  | .error e => .invalidCommand e

/-- The fields of an instruction's command word (R73). -/
def encodeFields : Instr → CommandFields
  | .init variant => { op := 1#4, v := bitOfVariant variant, rsvd := 0#27 }
  | .enc8 => { op := 2#4, v := 0#1, rsvd := 0#27 }
  | .dec8 => { op := 3#4, v := 0#1, rsvd := 0#27 }
  | .encb => { op := 4#4, v := 0#1, rsvd := 0#27 }
  | .decb => { op := 5#4, v := 0#1, rsvd := 0#27 }

/-- The command word of an instruction (R71: exactly one word; R73). -/
def encode (i : Instr) : Word :=
  (encodeFields i).toWord

/-- The low `nbits` bits of `w`, every bit above them zero, as a command word. A command is one 32-bit word
(R71), so it has one word only and no byte order of its own. -/
def commandWordOf (nbits w : Nat) : Word :=
  BitVec.ofNat 32 (w % 2 ^ nbits)

/-- What the decoder reads from the bits `w` of an opcode-table row. -/
def decodeTableWord (nbits w : Nat) : Option Instr :=
  match decode (commandWordOf nbits w) with
  | .ok i => some i
  | .error _ => none

end Sys2Proof
end

