-- ==== Sys2Proof/Machine/State.lean ====
section
/-! DEFINITION. The whole state of one codec core and of the host side of a run, as plain data (10_state.md,
R17 to R44; INVENTORY.md '## State'), the reasons a step can stop, and the state right after reset. -/

namespace Sys2Proof.Machine

/-- The codec context (R17). The integer fields hold the exact integers of the rules (R11); that each fits its
stored width (R9, D3) is the invariant `ContextInRange`, log entry 2. -/
structure Context where
  /-- Selects the four constants (R18, R19). -/
  variant : Variant
  /-- The adaptive step-size driver (R20). -/
  response : Int
  /-- The predictor output (R21). -/
  level : Int
  /-- The previously encoded or decoded bit (R22). -/
  lastBit : Bool
  /-- The snapshot of `level` that noise shaping averages with (R23). -/
  filteredLastLevel : Int
  /-- The low-pass accumulator (R24). -/
  lowPassLevel : Int
  /-- A context has been constructed by INIT (R25). -/
  valid : Bool
  deriving DecidableEq, Repr

/-- STATUS.KIND (R30, R132). -/
inductive Kind where
  | ok
  | invalidArgument
  | invalidCommand
  | noContext
  deriving DecidableEq, Repr

/-- STATUS.CAUSE (R30, R133). The values 4 to 7 are never produced, so they are no constructor. -/
inductive Cause where
  | none
  | count
  | inRange
  | outRange
  deriving DecidableEq, Repr

/-- The STATUS register (R30). Its other bits read as zero and hold nothing. -/
structure Status where
  kind : Kind
  cause : Cause
  busy : Bool
  deriving DecidableEq, Repr

/-- Who issues a register access: a host, on behalf of one of its streams (R26, R163; log entry 6). -/
structure Client where
  host : Nat
  stream : Nat
  deriving DecidableEq, Repr

/-- A range of host addresses that RAM backs: `[base, base + size)` (R60, D14). -/
structure Region where
  base : Nat
  size : Nat
  deriving DecidableEq, Repr

/-- One action of the host or of the platform (R10, R87, R170). `width` is the access width in bits and `offset`
the offset in the 256-byte register block (R28, R58). -/
inductive HostAction where
  /-- `WR`: a register write; at offset 0x00 it executes a command (R29). -/
  | writeReg (client : Client) (width : Nat) (offset : BitVec 8) (value : Word)
  /-- `RD`: a register read; the program records the value (R87). -/
  | readReg (client : Client) (width : Nat) (offset : BitVec 8)
  /-- The host stores one byte in its own memory (R10, R170 "buffer set-up"). -/
  | storeMem (address : Nat) (value : Byte)
  /-- The host loads one byte of its own memory (R10, R170). -/
  | loadMem (address : Nat)
  /-- The block's reset input is asserted (R153). -/
  | reset
  deriving DecidableEq, Repr

/-- Host memory: (address, byte) pairs in one canonical form, `Memory.wf` in Machine/Ops.lean. -/
abbrev Memory := List Host.Cell

/-- Why the model stops with a fault. -/
inductive Fault where
  /-- Raised by a host store or load (`performStore`, `performLoad`) whose address is not below 2^ADDR_W: the space
  has no such byte (R54). Safe: the model stops where the spec has no address. No command raises it (R63). -/
  | noSuchAddress
  deriving DecidableEq, Repr

/-- Why the model gives a situation no meaning (R141). Each is safe: "each refusal errs toward unprovable". -/
inductive Refusal where
  /-- Raised by an arm of `exec` that has no meaning yet. Safe. No arm raises it now. -/
  | notModelled (mnemonic : String)
  /-- Raised by ENCB and DECB when the input and output ranges share a byte (R65, R141). Safe. -/
  | overlap
  /-- Raised by ENCB and DECB when an accessed byte is not backed by RAM (R60, R141), and by a host store or load
  of such a byte (log entry 8). Safe. -/
  | unbacked
  /-- Raised by a register access that is not 32-bit or not aligned to 4 (R58, R141). Safe. -/
  | badAccess
  /-- Raised by a host access other than a STATUS read while BUSY = 1, by one to a command's buffers then, and by a
  reset then (R141, R154, R164). Not reachable in the atomic model. Safe. -/
  | busy
  /-- Raised by ENC8, DEC8, ENCB and DECB when, counting the command's client, two hosts mix two streams on the context
  or drive it by turns (R26, R141, R163; log entry 6). Safe. -/
  | shared
  deriving DecidableEq, Repr

/-- Everything the spec gives the machine, and the host side of a run. -/
structure State where
  /-- The codec context (R17). -/
  ctx : Context
  /-- CMD (R29). -/
  cmd : Word
  /-- STATUS (R30). -/
  status : Status
  /-- DIN_LO (R31). -/
  dinLo : Word
  /-- DIN_HI (R31). -/
  dinHi : Word
  /-- DOUT_LO (R32). -/
  doutLo : Word
  /-- DOUT_HI (R32). -/
  doutHi : Word
  /-- INBASE (R33). -/
  inBase : Word
  /-- INLEN (R33). -/
  inLen : Word
  /-- INOFF, read as signed (R33, R83). -/
  inOff : Word
  /-- OUTBASE (R34). -/
  outBase : Word
  /-- OUTLEN (R34). -/
  outLen : Word
  /-- OUTOFF, read as signed (R34, R83). -/
  outOff : Word
  /-- COUNT, read as signed (R35, R83). -/
  count : Word
  /-- Host memory (R54). -/
  mem : Memory
  /-- The RAM regions: `Backed` (R60, D14). No step changes them. -/
  ram : List Region
  /-- The host's coming actions, the next one first (R10, R87; log entry 1). -/
  pending : List HostAction
  /-- The values the reads returned, oldest first (R87, R171). -/
  readLog : List Word
  /-- The refused mark (R141, R142). -/
  refusedMark : Option Refusal
  /-- MODEL'S OWN: the client of the register access being performed (log entry 6). -/
  issuer : Client
  /-- MODEL'S OWN: the clients whose accepted commands have used the context since the INIT that constructed it, that
  INIT's client first, a client's successive commands once (log entry 6). -/
  users : List Client
  deriving DecidableEq, Repr

/-- How a step ends. -/
abbrev Outcome := Host.Outcome State Fault Refusal

/-- The context after power-on reset (R44, R153): no context exists, and the fields hold the initial values of a
Modern one. -/
def Context.reset : Context :=
  { variant := .modern, response := 0, level := 0, lastBit := false, filteredLastLevel := 0, lowPassLevel := 0,
    valid := false }

/-- STATUS 0x00000000 (R30). -/
def Status.reset : Status :=
  { kind := .ok, cause := .none, busy := false }

/-- The machine right after reset (R44, R153, R173): every register 0, no context, no host action waiting, nothing
read, no refused mark. `ram` (the whole space, log entry 5), the empty memory list (log entry 4) and the two client
fields (log entry 6) are the model's choices. -/
def State.reset : State :=
  { ctx := Context.reset, cmd := 0#32, status := Status.reset, dinLo := 0#32, dinHi := 0#32, doutLo := 0#32,
    doutHi := 0#32, inBase := 0#32, inLen := 0#32, inOff := 0#32, outBase := 0#32, outLen := 0#32, outOff := 0#32,
    count := 0#32, mem := [], ram := [{ base := 0, size := Config.memTop }], pending := [], readLog := [],
    refusedMark := none, issuer := { host := 0, stream := 0 }, users := [] }

end Sys2Proof.Machine
end

