-- ==== Sys2Proof/Machine/Ops.lean ====
section
/-! DEFINITION. The named operations the meanings share: the floor shift (R12), the variant constants (R18), host
memory (R54, R59, R60), the field updates of State, the completion of a command with a STATUS outcome (`raise`,
R13, R132), the two gates of a command (R92, R141) and reset of the block (R153). -/

namespace Sys2Proof.Machine

/-! ## Arithmetic and constants -/

/-- `a >> n`: `floor(a / 2^n)`, also for negative `a` (R12, D2). -/
def floorShift (a : Int) (n : Nat) : Int :=
  a / 2 ^ n

/-- CONSTS (R18, D32): "Legacy = (7, 20, 8, 100); Modern = (1, 1, 10, 140)". -/
def consts : Variant → Consts
  | .legacy => { respInc := 7, respDec := 20, respPrec := 8, lpfStrength := 100 }
  | .modern => { respInc := 1, respDec := 1, respPrec := 10, lpfStrength := 140 }

/-! ## Host memory -/

/-- `MemRead(addr, 1)` (R13, R60): the listed byte, or what an unlisted address reads as. -/
def Memory.read : Memory → Nat → Byte
  | [], _ => Config.unlistedByte
  | (b, w) :: m, a => if b = a then w else Memory.read m a

/-- Put one cell at the head of a memory, but for the value an unlisted address reads as. -/
def Memory.cons (a : Nat) (v : Byte) (m : Memory) : Memory :=
  if v = Config.unlistedByte then m else (a, v) :: m

/-- `MemWrite(addr, 1, v)` (R13, R60): changes only its byte, and keeps the canonical form. -/
def Memory.write : Memory → Nat → Byte → Memory
  | [], a, v => Memory.cons a v []
  | (b, w) :: m, a, v =>
    if a < b then Memory.cons a v ((b, w) :: m)
    else if a = b then Memory.cons a v m
    else (b, w) :: Memory.write m a v

/-- The canonical form: addresses strictly rising, and no cell that says what an unlisted address reads as. -/
abbrev Memory.wf (m : Memory) : Prop :=
  m.Pairwise (fun c d => c.1 < d.1) ∧ ∀ c ∈ m, c.2 ≠ Config.unlistedByte

/-- Every listed address is one of the space (R54). -/
abbrev Memory.inSpace (m : Memory) : Prop :=
  ∀ c ∈ m, c.1 < Config.memTop

/-- Some region of a RAM map holds the address. -/
def ramBacks (ram : List Region) (a : Nat) : Bool :=
  ram.any (fun r => decide (r.base ≤ a) && decide (a < r.base + r.size))

/-- `Backed(a)` (R9, R60): some RAM region holds the address. -/
def State.backed (s : State) (a : Nat) : Bool := ramBacks s.ram a

/-- Every byte of the `n` bytes at `a` is backed (R60). -/
def State.backedRange (s : State) (a n : Nat) : Bool :=
  (List.range n).all (fun i => s.backed (a + i))

/-- The ranges `[a, a+n)` and `[b, b+m)` share a byte (R65); an empty range shares none. -/
def rangesShare (a n b m : Nat) : Bool :=
  decide (max a b < min (a + n) (b + m))

/-! ## Updates of State -/

/-- The state with another context. -/
def State.setCtx (s : State) (c : Context) : State := { s with ctx := c }

/-- The state with another STATUS. -/
def State.setStatus (s : State) (t : Status) : State := { s with status := t }

/-- `CMD <- w` (R29). -/
def State.setCmd (s : State) (w : Word) : State := { s with cmd := w }

/-- `DOUT <- d`: DOUT_LO takes bits 31:0 and DOUT_HI bits 63:32 (R32, R57). -/
def State.setDout (s : State) (d : DWord) : State :=
  { s with doutLo := d.extractLsb' 0 32, doutHi := d.extractLsb' 32 32 }

/-- One byte of host memory stored. -/
def State.storeByte (s : State) (a : Nat) (v : Byte) : State := { s with mem := s.mem.write a v }

/-- The host's coming actions replaced. -/
def State.setPending (s : State) (p : List HostAction) : State := { s with pending := p }

/-- A read's value recorded (R87, R171). -/
def State.logRead (s : State) (w : Word) : State := { s with readLog := s.readLog ++ [w] }

/-- The client of the access being performed. -/
def State.setIssuer (s : State) (c : Client) : State := { s with issuer := c }

/-- The clients that have used the context replaced. -/
def State.setUsers (s : State) (u : List Client) : State := { s with users := u }

/-- Bytes stored at increasing addresses (R64). -/
def State.storeBytes : State → Nat → List Byte → State
  | s, _, [] => s
  | s, a, v :: vs => State.storeBytes (s.storeByte a v) (a + 1) vs

/-- The byte at a host address (R13). -/
def State.loadByte (s : State) (a : Nat) : Byte := s.mem.read a

/-- `n` bytes from increasing addresses (R64). -/
def State.loadBytes (s : State) : Nat → Nat → List Byte
  | _, 0 => []
  | a, n + 1 => s.loadByte a :: State.loadBytes s (a + 1) n

/-! ## Ending a command -/

/-- `raise K(c)` (R13, R132): STATUS takes the kind and the cause, with BUSY = 0, and nothing else changes. This is
the block's whole error mechanism: it has no trap entry and no trap return (R138, R139). -/
def State.raise (s : State) (k : Kind) (c : Cause) : State :=
  s.setStatus { kind := k, cause := c, busy := false }

/-- `x[STATUS] <- 0x00000000`: the command was accepted (R132). -/
def State.finish (s : State) : State :=
  s.raise .ok .none

/-! ## Who uses the context (R26, R141 "Shared", R163; log entry 6) -/

/-- Two hosts, so that one stream's commands and another's use one context (R141, R163): the client and the users so far
name more than one host and more than one stream. -/
def mixesStreams (users : List Client) (c : Client) : Bool :=
  users.any (fun u => decide (u.host ≠ c.host)) && users.any (fun u => decide (u.stream ≠ c.stream))

/-- Two hosts drive the context by turns (R26): the client's host has used it, and another host has since. -/
def interleavesHosts (users : List Client) (c : Client) : Bool :=
  (users.dropWhile (fun u => decide (u.host ≠ c.host))).any (fun u => decide (u.host ≠ c.host))

/-- The Shared situation for a command of the issuing client. With one host it is false. -/
def State.sharedUse (s : State) : Bool :=
  mixesStreams s.users s.issuer || interleavesHosts s.users s.issuer

/-- The users after one more accepted command: the client is put last, unless it is the last one already. -/
def recordedUsers (users : List Client) (c : Client) : List Client :=
  if users.getLast? = some c then users else users ++ [c]

/-- A command that uses the context has been accepted: STATUS OK, and the issuing client recorded. -/
def State.accept (s : State) : State := s.finish.setUsers (recordedUsers s.users s.issuer)

/-- Context gating (R92): without a context the command ends with NO_CONTEXT and changes nothing else (R135). -/
def State.withContext (s : State) (command : State → Outcome) : Outcome :=
  if s.ctx.valid then command s else .next (s.raise .noContext .none)

/-- The Shared refusal, reached only if no STATUS outcome and no other refusal applies (R136, R141; its place after the
other refusals is the model's, log entry 6). A command that is not refused is accepted. -/
def State.unlessShared (s : State) (command : State → State) : Outcome :=
  if s.sharedUse then .refused .shared else .next (command s).accept

/-! ## Reset -/

/-- Power-on reset or an assertion of the reset input (R153): every register and context field to its value of R44.
Host memory, the RAM map, the host's coming actions, the values read and the refused mark are not the block's and
stay (R142, R154). -/
def State.resetBlock (s : State) : State :=
  { State.reset with
    mem := s.mem, ram := s.ram, pending := s.pending, readLog := s.readLog, refusedMark := s.refusedMark,
    issuer := s.issuer }

end Sys2Proof.Machine
end

