-- ==== Sys2Proof/Machine/Operands.lean ====
section
/-! DEFINITION. Operand and result assembly (30_encoding.md R78 to R83; 20_memory.md R63): lanes of DIN and DOUT,
bits of a code byte, samples as integers, and the operands of a buffer command as integers. -/

namespace Sys2Proof.Machine

/-- DIN = `{DIN_HI, DIN_LO}` (R31). -/
def State.din (s : State) : DWord := s.dinHi ++ s.dinLo

/-- DOUT = `{DOUT_HI, DOUT_LO}` (R32). -/
def State.dout (s : State) : DWord := s.doutHi ++ s.doutLo

/-- Lane `j`: bits `8j+7:8j` (R31, R57). -/
def laneOf (d : DWord) (j : Nat) : Byte := d.extractLsb' (8 * j) 8

/-- The sample a byte holds: `sext_8(u)`, in [-128, 127] (R81). -/
def sampleOf (u : Byte) : Int := u.toInt

/-- The byte of an integer: its low 8 bits, wrap-around and not saturation (R81, R124). -/
def byteOf (y : Int) : Byte := BitVec.ofInt 8 y

/-- ENC8's operands: samples 0 to 7, sample 0 earliest (R78). -/
def State.dinSamples (s : State) : List Int :=
  [0, 1, 2, 3, 4, 5, 6, 7].map (fun j => sampleOf (laneOf s.din j))

/-- The bits of a code byte, bit 0 earliest (R79, R80). -/
def bitsOfByte (c : Byte) : List Bool :=
  [0, 1, 2, 3, 4, 5, 6, 7].map (fun j => c.getLsbD j)

/-- DEC8's operand: the bits of DIN_LO[7:0] (R79). -/
def State.dinBits (s : State) : List Bool :=
  bitsOfByte (s.dinLo.extractLsb' 0 8)

/-- `sum over j of (b_j ? 2^j : 0)` (R80). -/
def packBits : List Bool → Nat
  | [] => 0
  | b :: bs => b.toNat + 2 * packBits bs

/-- The code byte of a group's bits (R80). -/
def codeByte (bs : List Bool) : Byte := BitVec.ofNat 8 (packBits bs)

/-- `sum over j of (y_j[7:0] · 2^(8j))` (R82). -/
def packLanes : List Byte → Nat
  | [] => 0
  | y :: ys => y.toNat + 256 * packLanes ys

/-- ENC8's result: the code byte zero-extended to 64 bits (R82). -/
def doutOfCode (c : Byte) : DWord := c.setWidth 64

/-- DEC8's result: lane `j` is sample byte `j` (R82). -/
def doutOfSamples (ys : List Byte) : DWord := BitVec.ofNat 64 (packLanes ys)

/-- The operands of a buffer command, as integers (R83). -/
structure BufferOperands where
  /-- `n`, signed COUNT. -/
  n : Int
  /-- `io`, signed INOFF. -/
  io : Int
  /-- `oo`, signed OUTOFF. -/
  oo : Int
  /-- `il`, unsigned INLEN. -/
  il : Int
  /-- `ol`, unsigned OUTLEN. -/
  ol : Int
  /-- `ib`, unsigned INBASE. -/
  ib : Int
  /-- `ob`, unsigned OUTBASE. -/
  ob : Int
  deriving DecidableEq, Repr

/-- The operands read from the registers when the command executes (R83): OFF and COUNT signed, BASE and LEN
unsigned; all later arithmetic on them is in ℤ (D29). -/
def State.bufferOperands (s : State) : BufferOperands :=
  { n := s.count.toInt, io := s.inOff.toInt, oo := s.outOff.toInt, il := s.inLen.toNat, ol := s.outLen.toNat,
    ib := s.inBase.toNat, ob := s.outBase.toNat }

/-- `in_addr(0) = ib + io` (R63). -/
def State.inAddr (s : State) : Nat :=
  (s.bufferOperands.ib + s.bufferOperands.io).toNat

/-- `out_addr(0) = ob + oo` (R63). -/
def State.outAddr (s : State) : Nat :=
  (s.bufferOperands.ob + s.bufferOperands.oo).toNat

end Sys2Proof.Machine
end

