-- ==== Sys2Proof/Machine/Flags.lean ====
section
/-! DEFINITION. The block's flag-like state (R42): the STATUS word (R30, R84) and the argument checks that set its
CAUSE (R114, R127, R133). `lastBit` is Machine/Predictor.lean's and `valid` INIT's. -/

namespace Sys2Proof.Machine

/-- KIND, bits 1:0 (R30, R84). -/
def kindBits : Kind → BitVec 2
  | .ok => 0#2
  | .invalidArgument => 1#2
  | .invalidCommand => 2#2
  | .noContext => 3#2

/-- CAUSE, bits 4:2 (R30, R84). -/
def causeBits : Cause → BitVec 3
  | .none => 0#3
  | .count => 1#3
  | .inRange => 2#3
  | .outRange => 3#3

/-- The STATUS word: bits 31:9 zero, BUSY bit 8, bits 7:5 zero, CAUSE, KIND (R30, R84). -/
def Status.toWord (t : Status) : Word :=
  0#23 ++ (BitVec.ofBool t.busy ++ (0#3 ++ (causeBits t.cause ++ kindBits t.kind)))

/-- ENCB's COUNT condition (R114, R133): "a positive multiple of 8" (§6, C3). -/
def encodeCountBad (o : BufferOperands) : Bool :=
  decide (o.n ≤ 0) || decide (o.n % 8 ≠ 0)

/-- DECB's COUNT condition (R127, R133): only a negative count is bad (D11). -/
def decodeCountBad (o : BufferOperands) : Bool :=
  decide (o.n < 0)

/-- The IN_RANGE condition for `nin` input bytes (R114, R127, R133). -/
def inRangeBad (o : BufferOperands) (nin : Int) : Bool :=
  decide (o.io < 0) || decide (o.io + nin > o.il) || decide (o.ib + o.il > Config.memTop)

/-- The OUT_RANGE condition for `nout` output bytes (R114, R127, R133). -/
def outRangeBad (o : BufferOperands) (nout : Int) : Bool :=
  decide (o.oo < 0) || decide (o.oo + nout > o.ol) || decide (o.ob + o.ol > Config.memTop)

/-- The CAUSE of an INVALID_ARGUMENT, or `Cause.none`: COUNT before IN_RANGE before OUT_RANGE (R114, R127, R136). -/
def argumentCause (countBad : Bool) (o : BufferOperands) (nin nout : Int) : Cause :=
  if countBad then .count
  else if inRangeBad o nin then .inRange
  else if outRangeBad o nout then .outRange
  else .none

end Sys2Proof.Machine
end

