-- ==== Sys2Proof/Machine/Predictor.lean ====
section
/-! DEFINITION. The predictor state machine ADVANCE (41_predictor.md R96 to R108), step by step in the source's
order, on exact integers with floor shifts. -/

namespace Sys2Proof.Machine

/-- Step 1, the rail the predictor chases (R96). -/
def railTarget (bit : Bool) : Int :=
  if bit then 127 else -128

/-- Step 2, the scaled level update (R97). -/
def scaledLevel (bit : Bool) (c : Context) : Int :=
  c.level + floorShift (c.response * (railTarget bit - c.level) + 2 ^ ((consts c.variant).respPrec - 1))
    (consts c.variant).respPrec

/-- Step 3, the level anti-stall rule (R98). -/
def nextLevel (bit : Bool) (c : Context) : Int :=
  if scaledLevel bit c = c.level ∧ c.level ≠ railTarget bit then
    scaledLevel bit c + (if bit then 1 else -1)
  else scaledLevel bit c

/-- "run continuing": the bit equals the `lastBit` of before this step (R99, R102). -/
def continuing (bit : Bool) (c : Context) : Bool :=
  bit == c.lastBit

/-- Step 4, the response target: `2^P - 1` or 0 (R99). -/
def responseTarget (bit : Bool) (c : Context) : Int :=
  if continuing bit c then 2 ^ (consts c.variant).respPrec - 1 else 0

/-- Step 4, the response step: `respInc` or `respDec` (R99). -/
def responseDelta (bit : Bool) (c : Context) : Int :=
  if continuing bit c then (consts c.variant).respInc else (consts c.variant).respDec

/-- Step 5, the scaled response update: Legacy's with the literal 128 and 8 (R100), none for Modern (R101). -/
def scaledResponse (bit : Bool) (c : Context) : Int :=
  match c.variant with
  | .legacy => c.response + floorShift (responseDelta bit c * (responseTarget bit c - c.response) + 128) 8
  | .modern => c.response

/-- Step 6, the response anti-stall rule (R102). -/
def nudgedResponse (bit : Bool) (c : Context) : Int :=
  if scaledResponse bit c = c.response ∧ c.response ≠ responseTarget bit c then
    scaledResponse bit c + (if continuing bit c then 1 else -1)
  else scaledResponse bit c

/-- Step 7, the floor clamp `2^(P-8)·2`, which applies when P > 8, so to Modern only (R103, C1). -/
def nextResponse (bit : Bool) (c : Context) : Int :=
  if (consts c.variant).respPrec > 8 ∧ nudgedResponse bit c < 2 ^ ((consts c.variant).respPrec - 8) * 2 then
    2 ^ ((consts c.variant).respPrec - 8) * 2
  else nudgedResponse bit c

/-- ADVANCE(bit) (R105): step 8 commits `response`, `level` and `lastBit` together, each computed from the values of
before the step (R104), and changes nothing else (R107). -/
def advance (bit : Bool) (c : Context) : Context :=
  { c with response := nextResponse bit c, level := nextLevel bit c, lastBit := bit }

end Sys2Proof.Machine
end

