-- ==== Sys2Proof/Machine/Construct.lean ====
section
/-! DEFINITION. INIT (40_context.md R90): the construction of a context. -/

namespace Sys2Proof.Machine

/-- A freshly constructed context of a variant: the source's initial values (R90, R156). -/
def Context.fresh (v : Variant) : Context :=
  { variant := v, response := 0, level := 0, lastBit := false, filteredLastLevel := 0, lowPassLevel := 0,
    valid := true }

/-- INIT (R90): all seven context fields and STATUS; legal at any time (R94, D17). The constructing client becomes the
new context's first user, the model's own record (log entry 6). -/
def execInit (variant : Variant) (s : State) : Outcome :=
  .next (((s.setCtx (Context.fresh variant)).setUsers [s.issuer]).finish)

end Sys2Proof.Machine
end

