-- ==== Sys2Proof/Machine/Buffer.lean ====
section
/-! DEFINITION. What the two buffer commands share (42_encode.md R114, R116; 43_decode.md R127, R129): gating, the
argument checks and the refusals, in the priority of R136, before the first context update and the first memory
access (R137). -/

namespace Sys2Proof.Machine

/-- A buffer command of `nin` input and `nout` output bytes (R114, R127, R136): NO_CONTEXT; INVALID_ARGUMENT with
COUNT, IN_RANGE or OUT_RANGE; the refusals Overlap, Unbacked and Shared; else its execution from the two effective
addresses (R63), which ends with STATUS OK. -/
def bufferCommand (countBad : Bool) (nin nout : Int) (execution : Nat → Nat → State → State) (s : State) : Outcome :=
  s.withContext fun s =>
    match argumentCause countBad s.bufferOperands nin nout with
    | .none =>
      if rangesShare s.inAddr nin.toNat s.outAddr nout.toNat then .refused .overlap
      else if !(s.backedRange s.inAddr nin.toNat && s.backedRange s.outAddr nout.toNat) then .refused .unbacked
      else s.unlessShared fun s => execution s.inAddr s.outAddr s
    | cause => .next (s.raise .invalidArgument cause)

end Sys2Proof.Machine
end

