-- ==== Sys2Proof/Machine/Decoding.lean ====
section
/-! DEFINITION. The decode family (43_decode.md R119 to R131): the noise-shaping filter, the low-pass accumulator,
DECSTEP, DEC8 and DECB. -/

namespace Sys2Proof.Machine

/-- Step 3, the noise-shaped level `blevel` (R121): `before` is the context before ADVANCE and `after` the one after
it; `filteredLastLevel` is the one before step 4 (R161). -/
def shapedLevel (bit : Bool) (before after : Context) : Int :=
  if bit = before.lastBit then after.level
  else floorShift (before.filteredLastLevel + after.level + 1) 1

/-- Step 5, the low-pass update toward `blevel` (R123). -/
def filteredOutput (c : Context) (blevel : Int) : Int :=
  c.lowPassLevel + floorShift ((consts c.variant).lpfStrength * (blevel - c.lowPassLevel) + 128) 8

/-- The context after DECSTEP(bit) (R125). -/
def decodeNext (bit : Bool) (c : Context) : Context :=
  { advance bit c with
    filteredLastLevel := (advance bit c).level
    lowPassLevel := filteredOutput c (shapedLevel bit c (advance bit c)) }

/-- The byte DECSTEP(bit) emits: the low 8 bits of the new `lowPassLevel` (R124). -/
def decodeSample (bit : Bool) (c : Context) : Byte :=
  byteOf (decodeNext bit c).lowPassLevel

/-- The context after successive DECSTEPs (R106, R126). -/
def decodeContext : List Bool → Context → Context
  | [], c => c
  | b :: bs, c => decodeContext bs (decodeNext b c)

/-- The bytes of successive DECSTEPs (R126). -/
def decodeSamples : List Bool → Context → List Byte
  | [], _ => []
  | b :: bs, c => decodeSample b c :: decodeSamples bs (decodeNext b c)

/-- DEC8 (R126). -/
def execDec8 (s : State) : Outcome :=
  s.withContext fun s =>
    s.unlessShared fun s => (s.setCtx (decodeContext s.dinBits s.ctx)).setDout (doutOfSamples (decodeSamples s.dinBits s.ctx))

/-- One code byte of DECB: one read, then eight writes in increasing order (R64, R128). -/
def decodeByteStep (inA outA : Nat) (s : State) : State :=
  (s.setCtx (decodeContext (bitsOfByte (s.loadByte inA)) s.ctx)).storeBytes outA
    (decodeSamples (bitsOfByte (s.loadByte inA)) s.ctx)

/-- DECB's loop over `k` code bytes (R128). -/
def decodeBytes : Nat → Nat → Nat → State → State
  | 0, _, _, s => s
  | k + 1, inA, outA, s => decodeBytes k (inA + 1) (outA + 8) (decodeByteStep inA outA s)

/-- DECB's input byte count: COUNT (R63). -/
def State.decodeIn (s : State) : Int := s.bufferOperands.n

/-- DECB's output byte count: 8 · COUNT (R63). -/
def State.decodeOut (s : State) : Int := 8 * s.bufferOperands.n

/-- DECB (R127, R128, R129). -/
def execDecb (s : State) : Outcome :=
  bufferCommand (decodeCountBad s.bufferOperands) s.decodeIn s.decodeOut (decodeBytes s.decodeIn.toNat) s

end Sys2Proof.Machine
end

