-- ==== Sys2Proof/Machine/Encoding.lean ====
section
/-! DEFINITION. The encode family (42_encode.md R109 to R118): the encoder decision, ENCSTEP, group packing, ENC8 and
ENCB. -/

namespace Sys2Proof.Machine

/-- The encoder decision, on the level of before the update; a tie gives 1 only at the top rail (R109, R111). -/
def encodeBit (sample : Int) (c : Context) : Bool :=
  decide (sample > c.level) || (decide (sample = c.level) && decide (c.level = 127))

/-- The context after ENCSTEP(s): ADVANCE on the decided bit (R110). -/
def encodeNext (sample : Int) (c : Context) : Context :=
  advance (encodeBit sample c) c

/-- The bits of successive samples, each decided after the ADVANCE of the one before (R112, R160). -/
def encodeBits : List Int → Context → List Bool
  | [], _ => []
  | x :: xs, c => encodeBit x c :: encodeBits xs (encodeNext x c)

/-- The context after successive ENCSTEPs (R106, R112). -/
def encodeContext : List Int → Context → Context
  | [], c => c
  | x :: xs, c => encodeContext xs (encodeNext x c)

/-- ENCGROUP's code byte (R112). -/
def encodeGroup (xs : List Int) (c : Context) : Byte :=
  codeByte (encodeBits xs c)

/-- ENC8 (R113). -/
def execEnc8 (s : State) : Outcome :=
  s.withContext fun s =>
    s.unlessShared fun s => (s.setCtx (encodeContext s.dinSamples s.ctx)).setDout (doutOfCode (encodeGroup s.dinSamples s.ctx))

/-- The eight samples at a host address (R115: `sext_8(MemRead(…))`). -/
def State.loadSamples (s : State) (a n : Nat) : List Int :=
  (s.loadBytes a n).map sampleOf

/-- One group of ENCB: eight reads in increasing order, then one write (R64, R115). -/
def encodeGroupStep (inA outA : Nat) (s : State) : State :=
  (s.setCtx (encodeContext (s.loadSamples inA 8) s.ctx)).storeByte outA (encodeGroup (s.loadSamples inA 8) s.ctx)

/-- ENCB's loop over `k` groups (R115). -/
def encodeGroups : Nat → Nat → Nat → State → State
  | 0, _, _, s => s
  | k + 1, inA, outA, s => encodeGroups k (inA + 8) (outA + 1) (encodeGroupStep inA outA s)

/-- ENCB's input byte count: COUNT (R63). -/
def State.encodeIn (s : State) : Int := s.bufferOperands.n

/-- ENCB's output byte count: COUNT / 8 (R63). -/
def State.encodeOut (s : State) : Int := s.bufferOperands.n / 8

/-- ENCB (R114, R115, R116). -/
def execEncb (s : State) : Outcome :=
  bufferCommand (encodeCountBad s.bufferOperands) s.encodeIn s.encodeOut (encodeGroups s.encodeOut.toNat) s

end Sys2Proof.Machine
end

