-- ==== Sys2Proof/Machine/Registers.lean ====
section
/-! DEFINITION. The register block (10_state.md R28 to R41): which register stands at an offset, what a read of it
returns, and what a host write of a plain register does. A write of CMD executes a command and stands in
Machine/Access.lean. -/

namespace Sys2Proof.Machine

/-- The registers of the block (R28). -/
inductive Reg where
  | cmd | status | dinLo | dinHi | doutLo | doutHi
  | inBase | inLen | inOff | outBase | outLen | outOff | count
  | ctxCfg | ctxResponse | ctxLevel | ctxLastBit | ctxFLastLevel | ctxLpLevel | ctxParams
  deriving DecidableEq, Repr

/-- The offset of a register (R28). -/
def Reg.offset : Reg → BitVec 8
  | .cmd => 0x00#8
  | .status => 0x04#8
  | .dinLo => 0x08#8
  | .dinHi => 0x0C#8
  | .doutLo => 0x10#8
  | .doutHi => 0x14#8
  | .inBase => 0x18#8
  | .inLen => 0x1C#8
  | .inOff => 0x20#8
  | .outBase => 0x24#8
  | .outLen => 0x28#8
  | .outOff => 0x2C#8
  | .count => 0x30#8
  | .ctxCfg => 0x40#8
  | .ctxResponse => 0x44#8
  | .ctxLevel => 0x48#8
  | .ctxLastBit => 0x4C#8
  | .ctxFLastLevel => 0x50#8
  | .ctxLpLevel => 0x54#8
  | .ctxParams => 0x58#8

/-- Every register of the block, in the order of R28. -/
def Reg.all : List Reg :=
  [.cmd, .status, .dinLo, .dinHi, .doutLo, .doutHi, .inBase, .inLen, .inOff, .outBase, .outLen, .outOff, .count,
   .ctxCfg, .ctxResponse, .ctxLevel, .ctxLastBit, .ctxFLastLevel, .ctxLpLevel, .ctxParams]

/-- The register at an offset; none where the offset is reserved (R28). -/
def regAt (offset : BitVec 8) : Option Reg :=
  Reg.all.find? (fun r => r.offset == offset)

/-- The host address of a register: `CODEC_BASE` plus its offset (R28, R53; log entry 11). -/
def Reg.address (r : Reg) : Nat :=
  Config.codecBase + r.offset.toNat

/-- CTX_CFG: bit 0 LEGACY, bit 1 VALID (R36). -/
def Context.cfgWord (c : Context) : Word :=
  0#30 ++ (BitVec.ofBool c.valid ++ BitVec.ofBool (decide (c.variant = .legacy)))

/-- CTX_RESPONSE: bits 9:0 hold `response`, the rest read as zero (R37). -/
def Context.responseWord (c : Context) : Word :=
  (BitVec.ofInt 10 c.response).setWidth 32

/-- CTX_LASTBIT: bit 0 (R37). -/
def Context.lastBitWord (c : Context) : Word :=
  (BitVec.ofBool c.lastBit).setWidth 32

/-- A signed context field as 32-bit two's complement: `v[31:0]` (R38). -/
def signedWord (v : Int) : Word :=
  BitVec.ofInt 32 v

/-- CTX_PARAMS: `lpfStrength` 31:24, zero 23:20, `respPrec` 19:16, `respDec` 15:8, `respInc` 7:0 (R39). -/
def Context.paramsWord (c : Context) : Word :=
  BitVec.ofInt 8 (consts c.variant).lpfStrength ++ (0#4 ++ (BitVec.ofNat 4 (consts c.variant).respPrec ++
    (BitVec.ofInt 8 (consts c.variant).respDec ++ BitVec.ofInt 8 (consts c.variant).respInc)))

/-- What a read of a register returns (R28 to R39). -/
def readRegister (s : State) : Reg → Word
  | .cmd => s.cmd
  | .status => s.status.toWord
  | .dinLo => s.dinLo
  | .dinHi => s.dinHi
  | .doutLo => s.doutLo
  | .doutHi => s.doutHi
  | .inBase => s.inBase
  | .inLen => s.inLen
  | .inOff => s.inOff
  | .outBase => s.outBase
  | .outLen => s.outLen
  | .outOff => s.outOff
  | .count => s.count
  | .ctxCfg => s.ctx.cfgWord
  | .ctxResponse => s.ctx.responseWord
  | .ctxLevel => signedWord s.ctx.level
  | .ctxLastBit => s.ctx.lastBitWord
  | .ctxFLastLevel => signedWord s.ctx.filteredLastLevel
  | .ctxLpLevel => signedWord s.ctx.lowPassLevel
  | .ctxParams => s.ctx.paramsWord

/-- What a read at an offset returns: a reserved offset reads as zero (R28). -/
def readOffset (s : State) (offset : BitVec 8) : Word :=
  match regAt offset with
  | some r => readRegister s r
  | none => 0#32

/-- A host write of a register, but for the command that a write of CMD executes: an RW register takes the value, an
RO register ignores it (R28, R29, D19). -/
def writeRegister (s : State) (value : Word) : Reg → State
  | .cmd => s.setCmd value
  | .dinLo => { s with dinLo := value }
  | .dinHi => { s with dinHi := value }
  | .inBase => { s with inBase := value }
  | .inLen => { s with inLen := value }
  | .inOff => { s with inOff := value }
  | .outBase => { s with outBase := value }
  | .outLen => { s with outLen := value }
  | .outOff => { s with outOff := value }
  | .count => { s with count := value }
  | .status => s
  | .doutLo => s
  | .doutHi => s
  | .ctxCfg => s
  | .ctxResponse => s
  | .ctxLevel => s
  | .ctxLastBit => s
  | .ctxFLastLevel => s
  | .ctxLpLevel => s
  | .ctxParams => s

end Sys2Proof.Machine
end

