-- ==== Sys2Proof/Machine/Access.lean ====
section
/-! DEFINITION. The host's actions, each one step of the machine (00_scope.md R10; 70_reset_and_hazards.md R170):
register writes and reads, the command that a write of CMD executes, the host's own memory, and reset. -/

namespace Sys2Proof.Machine

/-- The command step (R10, R75): a legal word executes its command, an illegal one is INVALID_COMMAND, which writes
STATUS and changes nothing else (R76, R134). -/
def runCommand (w : Word) (s : State) : Outcome :=
  match commandOfWord w with
  | .operation i => exec i s
  | .invalidCommand _ => .next (s.raise .invalidCommand .none)

/-- A register access has meaning only if it is 32 bits wide and aligned to 4 (R58). -/
def accessLegal (width : Nat) (offset : BitVec 8) : Bool :=
  decide (width = 32) && decide (offset.toNat % 4 = 0)

/-- A host write at an offset (R28, R29): CMD takes the word and then the command runs; a reserved offset ignores the
write. BadAccess goes before Busy (log entry 7). -/
def performWrite (client : Client) (width : Nat) (offset : BitVec 8) (value : Word) (s : State) : Outcome :=
  if !accessLegal width offset then .refused .badAccess
  else if s.status.busy then .refused .busy
  else
    match regAt offset with
    | none => .next (s.setIssuer client)
    | some .cmd => runCommand value (writeRegister (s.setIssuer client) value .cmd)
    | some r => .next (writeRegister (s.setIssuer client) value r)

/-- A host read at an offset: the program records the value (R87), and nothing of the block changes (R43, R93). While
BUSY = 1 only STATUS may be read (R141, R164). -/
def performRead (client : Client) (width : Nat) (offset : BitVec 8) (s : State) : Outcome :=
  if !accessLegal width offset then .refused .badAccess
  else if s.status.busy && decide (offset ≠ Reg.status.offset) then .refused .busy
  else .next ((s.setIssuer client).logRead (readOffset s offset))

/-- The command in CMD uses buffers (R54: only ENCB and DECB do). -/
def usesBuffers (w : Word) : Bool :=
  match decode w with
  | .ok .encb => true
  | .ok .decb => true
  | _ => false

/-- The address is in one of the two buffers of the buffer command in CMD, `[BASE, BASE + LEN)` (R54, R164). -/
def State.inCommandBuffers (s : State) (a : Nat) : Bool :=
  usesBuffers s.cmd &&
    ((decide (s.inBase.toNat ≤ a) && decide (a < s.inBase.toNat + s.inLen.toNat)) ||
      (decide (s.outBase.toNat ≤ a) && decide (a < s.outBase.toNat + s.outLen.toNat)))

/-- What the host's own access to a byte of memory needs: an address of the space (R54), no command under way on that
byte (R66, R141 "Busy", R164), and RAM (R60; log entry 8). DESIGN CHOICE: where both fail the answer is Busy, not
Unbacked; the spec gives no order (log entry 7). -/
def State.withMemory (s : State) (a : Nat) (next : State) : Outcome :=
  if a ≥ Config.memTop then .fault .noSuchAddress
  else if s.status.busy && s.inCommandBuffers a then .refused .busy
  else if !s.backed a then .refused .unbacked
  else .next next

/-- The host stores a byte in its memory between commands (R10, R170). -/
def performStore (a : Nat) (v : Byte) (s : State) : Outcome :=
  s.withMemory a (s.storeByte a v)

/-- The host loads a byte of its memory: a read of RAM has no side effect (R60). -/
def performLoad (a : Nat) (s : State) : Outcome :=
  s.withMemory a s

/-- The reset input (R153); while a command executes it is the Busy refusal (R154). -/
def performReset (s : State) : Outcome :=
  if s.status.busy then .refused .busy else .next s.resetBlock

/-- One action of the host or of the platform. -/
def perform (a : HostAction) (s : State) : Outcome :=
  match a with
  | .writeReg client width offset value => performWrite client width offset value s
  | .readReg client width offset => performRead client width offset s
  | .storeMem address value => performStore address value s
  | .loadMem address => performLoad address s
  | .reset => performReset s

/-- One step: a refused mark is never cleared (R142); with no action waiting the block is idle (R149, R155); else the
next action is performed. -/
def hostStep (s : State) : Outcome :=
  match s.refusedMark with
  | some r => .refused r
  | none =>
    match s.pending with
    | [] => .next s
    | a :: rest => perform a (s.setPending rest)

end Sys2Proof.Machine
end

