-- ==== Sys2Proof/Machine/Step.lean ====
section
/-! DEFINITION. The step of the machine, one host action (00_scope.md R10), and how a command word comes to be the
next one that a step runs. -/

namespace Sys2Proof.Machine

/-- One step: `hostStep` of Machine/Access.lean. -/
def step (s : State) : Host.Outcome State Fault Refusal :=
  hostStep s

/-- The state whose very next step is `WR CMD, w`, 32 bits wide, by the client of the last access. The block fetches
nothing (R40, R55): a command comes from the host, so this puts the write at the front of the host's coming actions and
meets the launch premise of R173 that a step needs, no refused mark and BUSY = 0 (log entry 1). -/
def State.withFetchWord (s : State) (nbits w : Nat) : State :=
  { s with
    pending := .writeReg s.issuer 32 Reg.cmd.offset (commandWordOf nbits w) :: s.pending
    refusedMark := none
    status := { s.status with busy := false } }

end Sys2Proof.Machine
end

