-- ==== Sys2Proof/Machine/Program.lean ====
section
/-! DEFINITION. Host programs (30_encoding.md R87 to R89, D26): the statements, the host actions each one expands
into, the memory that MEM statements set up, and the state from which a program starts (70_reset_and_hazards.md
R173). -/

namespace Sys2Proof.Machine

/-- `(base, length, offset)` of a buffer, as R88 writes it. -/
structure BufferArgument where
  base : Int
  length : Int
  offset : Int
  deriving DecidableEq, Repr

/-- One statement of a host program (R87, R88); "No other pseudo-instructions exist". -/
inductive HostStatement where
  /-- `WR reg, value` (R87). -/
  | wr (reg : Reg) (value : Int)
  /-- `RD reg` (R87). -/
  | rd (reg : Reg)
  /-- `MEM address: bytes` (R87): initial host memory, not executed by the block. -/
  | mem (address : Nat) (bytes : List Byte)
  /-- `INIT MODERN` and `INIT LEGACY` (R88). -/
  | init (variant : Variant)
  /-- `ENC8 s0, …, s7` (R88). -/
  | enc8 (s0 s1 s2 s3 s4 s5 s6 s7 : Int)
  /-- `DEC8 c` (R88): DIN_HI stays as it was. -/
  | dec8 (c : Int)
  /-- `ENCB out=…, in=…, n` (R88). -/
  | encb (output input : BufferArgument) (n : Int)
  /-- `DECB out=…, in=…, n` (R88). -/
  | decb (output input : BufferArgument) (n : Int)
  /-- `CMD w` (R88): any word, also an illegal one. -/
  | cmd (w : Word)
  deriving DecidableEq, Repr

/-- The word of a `WR` operand: "A negative operand to `WR` is written as its 32-bit two's complement" (R88). DESIGN
CHOICE: an operand of 2^32 or more, or below -2^31, is taken modulo 2^32; the spec gives it no word (log entry 14). -/
def operandWord (v : Int) : Word := BitVec.ofInt 32 v

/-- `{s3,s2,s1,s0}`: four sample bytes `s[7:0]`, the first in bits 7:0 (R88). -/
def sampleWord (s0 s1 s2 s3 : Int) : Word :=
  byteOf s3 ++ (byteOf s2 ++ (byteOf s1 ++ byteOf s0))

/-- `WR reg, w` as a host action: 32 bits wide at the register's offset (R58, R87). -/
def writeAction (client : Client) (r : Reg) (w : Word) : HostAction :=
  .writeReg client 32 r.offset w

/-- The eight writes of a buffer command's statement, in the order of R88. -/
def bufferActions (client : Client) (output input : BufferArgument) (n : Int) (command : Instr) : List HostAction :=
  [writeAction client .outBase (operandWord output.base), writeAction client .outLen (operandWord output.length),
   writeAction client .outOff (operandWord output.offset), writeAction client .inBase (operandWord input.base),
   writeAction client .inLen (operandWord input.length), writeAction client .inOff (operandWord input.offset),
   writeAction client .count (operandWord n), writeAction client .cmd (encode command)]

/-- The host actions a statement expands into (R87, R88). -/
def HostStatement.expand (client : Client) : HostStatement → List HostAction
  | .wr r v => [writeAction client r (operandWord v)]
  | .rd r => [.readReg client 32 r.offset]
  | .mem _ _ => []
  | .init v => [writeAction client .cmd (encode (.init v))]
  | .enc8 s0 s1 s2 s3 s4 s5 s6 s7 =>
    [writeAction client .dinLo (sampleWord s0 s1 s2 s3), writeAction client .dinHi (sampleWord s4 s5 s6 s7),
     writeAction client .cmd (encode .enc8)]
  | .dec8 c => [writeAction client .dinLo (operandWord c), writeAction client .cmd (encode .dec8)]
  | .encb output input n => bufferActions client output input n .encb
  | .decb output input n => bufferActions client output input n .decb
  | .cmd w => [writeAction client .cmd w]

/-- The host actions of a program, in order (R87). -/
def programActions (client : Client) (program : List HostStatement) : List HostAction :=
  program.flatMap (HostStatement.expand client)

/-- Bytes written at increasing addresses (R87 `MEM`). It looks at no address: `launch` admits no MEM byte outside the
space (log entry 13). -/
def Memory.writeBytes : Memory → Nat → List Byte → Memory
  | m, _, [] => m
  | m, a, v :: vs => Memory.writeBytes (m.write a v) (a + 1) vs

/-- The host memory that a program's MEM statements give (R87, R173). DESIGN CHOICE: of two statements that name one byte
the later one gives its value; the spec says nothing of that (log entry 13). -/
def programMemory : List HostStatement → Memory → Memory
  | [], m => m
  | .mem a bytes :: program, m => programMemory program (m.writeBytes a bytes)
  | _ :: program, m => programMemory program m

/-- The addresses of the bytes a statement names (R87 `MEM`). -/
def HostStatement.namedBytes : HostStatement → List Nat
  | .mem address bytes => (List.range bytes.length).map (address + ·)
  | _ => []

/-- The premise of R173 on a program and a RAM map: `Backed` holds on every byte the MEM statements name. DESIGN CHOICE:
such a byte must also be one of the 2^32 of R54, whatever the RAM map holds (log entry 13). -/
def launchAllowed (program : List HostStatement) (ram : List Region) : Bool :=
  (program.flatMap HostStatement.namedBytes).all (fun a => decide (a < Config.memTop) && ramBacks ram a)

/-- The clean-entry state of R173: the machine just after reset, with the program's statements as the host's coming
actions, its MEM bytes in host memory, and a RAM map; none where R173's premise fails. -/
def launch (client : Client) (program : List HostStatement) (ram : List Region) : Option State :=
  if launchAllowed program ram then
    some { State.reset with
      pending := programActions client program, mem := programMemory program [], ram := ram }
  else none

end Sys2Proof.Machine
end

