-- ==== Sys2Proof/Safety.lean ====
section
/-! DEFINITION. What counts as a safe run, in the terms the statements use: the ranges of the context (10_state.md
R45 to R49), the invariant that every step keeps, the run with its refused mark (60_exceptions.md R141, R142), the end
of a host program (70_reset_and_hazards.md R171), and the conditions of R114 and R127 in integers. -/

namespace Sys2Proof.Machine

/-- The context fits its stored widths (R9, D3): `level`, `filteredLastLevel` and `lowPassLevel` in [-128, 127] (R45,
R49), `response` in [0, 2^P - 1] (R47). -/
abbrev ContextInRange (c : Context) : Prop :=
  -128 ≤ c.level ∧ c.level ≤ 127 ∧
  -128 ≤ c.filteredLastLevel ∧ c.filteredLastLevel ≤ 127 ∧
  -128 ≤ c.lowPassLevel ∧ c.lowPassLevel ≤ 127 ∧
  0 ≤ c.response ∧ c.response ≤ 2 ^ (consts c.variant).respPrec - 1

/-- The floor of the Modern response (R48, C1, C2): 8 or more, but for the initial 0 of a context on which no
ADVANCE has run yet. -/
abbrev ResponseFloor (c : Context) : Prop :=
  c.variant = .modern → 8 ≤ c.response ∨ (c.response = 0 ∧ c.level = 0 ∧ c.lastBit = false)

/-- STATUS as an access sees it: BUSY 0, and a CAUSE exactly with KIND INVALID_ARGUMENT (R30, R84). -/
abbrev StatusLegal (t : Status) : Prop :=
  t.busy = false ∧ (t.cause = .none ↔ t.kind ≠ .invalidArgument)

/-- The invariant of the machine. -/
abbrev Inv (s : State) : Prop :=
  ContextInRange s.ctx ∧ ResponseFloor s.ctx ∧ StatusLegal s.status ∧ s.mem.wf ∧ s.mem.inSpace

/-- A run's step with the refused mark of R141 kept in the state: a refusal sets the mark, and a fault or a marked
state stays as it is. DESIGN CHOICE: but for the mark, a refused step leaves the state from before it, CMD unwritten and
the refused action still waiting; R141 lets an implementation do anything there (log entry 3). -/
def stepMarked (s : State) : State :=
  match step s with
  | .next t => t
  | .fault _ => s
  | .refused r => { s with refusedMark := some r }

/-- `k` steps of a run (R171). -/
def runMarked : Nat → State → State
  | 0, s => s
  | k + 1, s => runMarked k (stepMarked s)

/-- The run has ended: the last statement has been executed and no refusal has occurred (R171). -/
abbrev Ended (s : State) : Prop :=
  s.pending = [] ∧ s.refusedMark = none

/-- The next host action is `a`, and nothing stands in its way: no refused mark and BUSY = 0 (R141, R142). -/
abbrev Awaits (s : State) (a : HostAction) (rest : List HostAction) : Prop :=
  s.pending = a :: rest ∧ s.refusedMark = none ∧ s.status.busy = false

/-- The host action that executes a command: `WR CMD, w` (R29, R88). -/
abbrev writeCmd (client : Client) (w : Word) : HostAction :=
  .writeReg client 32 0x00#8 w

/-! ## The conditions of R114 and R127, in integers (R83, D29) -/

/-- ENCB's COUNT condition (R114): `n ≤ 0 or n mod 8 ≠ 0`. -/
abbrev EncodeCountIllegal (s : State) : Prop :=
  s.count.toInt ≤ 0 ∨ s.count.toInt % 8 ≠ 0

/-- DECB's COUNT condition (R127): `n < 0`. -/
abbrev DecodeCountIllegal (s : State) : Prop :=
  s.count.toInt < 0

/-- The IN_RANGE condition (R114, R127): `io < 0 or io + nin > il or ib + il > 2^ADDR_W`. -/
abbrev InputOutOfBounds (s : State) (nin : Int) : Prop :=
  s.inOff.toInt < 0 ∨ s.inOff.toInt + nin > s.inLen.toNat ∨ s.inBase.toNat + s.inLen.toNat > 2 ^ 32

/-- The OUT_RANGE condition (R114, R127): `oo < 0 or oo + nout > ol or ob + ol > 2^ADDR_W`. -/
abbrev OutputOutOfBounds (s : State) (nout : Int) : Prop :=
  s.outOff.toInt < 0 ∨ s.outOff.toInt + nout > s.outLen.toNat ∨ s.outBase.toNat + s.outLen.toNat > 2 ^ 32

/-- The address is one of the `nin` bytes of the input range `[ib+io, ib+io+nin)` (R63, R65). -/
abbrev InInputRange (s : State) (nin a : Int) : Prop :=
  s.inBase.toNat + s.inOff.toInt ≤ a ∧ a < s.inBase.toNat + s.inOff.toInt + nin

/-- The address is one of the `nout` bytes of the output range `[ob+oo, ob+oo+nout)` (R63, R65). -/
abbrev InOutputRange (s : State) (nout a : Int) : Prop :=
  s.outBase.toNat + s.outOff.toInt ≤ a ∧ a < s.outBase.toNat + s.outOff.toInt + nout

/-- `Backed(a)`: some RAM region holds the address (R60). -/
abbrev IsBacked (s : State) (a : Int) : Prop :=
  ∃ r ∈ s.ram, (r.base : Int) ≤ a ∧ a < r.base + r.size

/-- The two ranges share a byte (R65). -/
abbrev RangesOverlap (s : State) (nin nout : Int) : Prop :=
  ∃ a : Int, InInputRange s nin a ∧ InOutputRange s nout a

/-- Some byte of either range is not backed (R60). -/
abbrev SomeUnbacked (s : State) (nin nout : Int) : Prop :=
  ∃ a : Int, (InInputRange s nin a ∨ InOutputRange s nout a) ∧ ¬ IsBacked s a

/-- With the issuing client, the context's users are two hosts and two streams (R141 "Shared", R163; log entry 6). -/
abbrev StreamsMixed (s : State) : Prop :=
  (∃ u ∈ s.users, u.host ≠ s.issuer.host) ∧ ∃ u ∈ s.users, u.stream ≠ s.issuer.stream

/-- The issuing client's host has used the context, and another host has since (R26; log entry 6). -/
abbrev HostsInterleaved (s : State) : Prop :=
  ∃ before u after, s.users = before ++ u :: after ∧ u.host ≠ s.issuer.host ∧
    ∃ v ∈ before, v.host = s.issuer.host

/-- The Shared situation of R141 for a command of the issuing client (log entry 6). -/
abbrev SharedClients (s : State) : Prop :=
  StreamsMixed s ∨ HostsInterleaved s

/-- Every condition of R114 is met: ENCB executes (R115). -/
abbrev EncodeAccepted (s : State) : Prop :=
  s.ctx.valid = true ∧ ¬ EncodeCountIllegal s ∧ ¬ InputOutOfBounds s s.count.toInt ∧
  ¬ OutputOutOfBounds s (s.count.toInt / 8) ∧ ¬ RangesOverlap s s.count.toInt (s.count.toInt / 8) ∧
  ¬ SomeUnbacked s s.count.toInt (s.count.toInt / 8) ∧ ¬ SharedClients s

/-- Every condition of R127 is met: DECB executes (R128). -/
abbrev DecodeAccepted (s : State) : Prop :=
  s.ctx.valid = true ∧ ¬ DecodeCountIllegal s ∧ ¬ InputOutOfBounds s s.count.toInt ∧
  ¬ OutputOutOfBounds s (8 * s.count.toInt) ∧ ¬ RangesOverlap s s.count.toInt (8 * s.count.toInt) ∧
  ¬ SomeUnbacked s s.count.toInt (8 * s.count.toInt) ∧ ¬ SharedClients s

/-- An action of one host only: its register accesses name host `h` (R163). -/
abbrev OfHost (h : Nat) : HostAction → Prop
  | .writeReg c _ _ _ => c.host = h
  | .readReg c _ _ => c.host = h
  | .storeMem _ _ => True
  | .loadMem _ => True
  | .reset => True

/-- One host alone drives the block: its coming actions name it, and so do the context's users (R163). -/
abbrev SingleHost (h : Nat) (s : State) : Prop :=
  (∀ a ∈ s.pending, OfHost h a) ∧ ∀ u ∈ s.users, u.host = h

end Sys2Proof.Machine
end

