-- ==== Sys2Proof/Certificates/Slice0/Obligations.lean ====
section
/-! DEFINITION. The statements for the provers, drawn from the numbered rules of spec/. Each docstring names the rule or
the log entry it rests on. Nothing is proved here. -/

open Sys2Proof Sys2Proof.Machine

/-! ## The command word (30_encoding.md) -/

/-- The six legal command words of R73, written out. -/
def Obligations.TableWordsDecode : Prop :=
  decode 0x00000001#32 = .ok (.init .modern) ∧ decode 0x00000011#32 = .ok (.init .legacy) ∧
  decode 0x00000002#32 = .ok .enc8 ∧ decode 0x00000003#32 = .ok .dec8 ∧
  decode 0x00000004#32 = .ok .encb ∧ decode 0x00000005#32 = .ok .decb

/-- A word decodes to an instruction exactly if it is that instruction's encoding: no bit of a word is dropped (R71,
R73, R75, R77). -/
def Obligations.DecodeIsEncodeInverted : Prop :=
  ∀ (w : Word) (i : Instr), i.wellFormed = true → (decode w = .ok i ↔ w = encode i)

/-- R76 and R134: a word is illegal exactly under R76's three conditions (bits 31:5, 3:0 and 4 as numbers), and then
writing it to CMD changes CMD and STATUS and nothing else of the block. -/
def Obligations.IllegalWordIsInvalidCommand : Prop :=
  ∀ w : Word,
    ((∃ e, decode w = .error e) ↔
      (w.toNat / 32 ≠ 0 ∨ (w.toNat % 16 = 0 ∨ 6 ≤ w.toNat % 16) ∨
        ((2 ≤ w.toNat % 16 ∧ w.toNat % 16 ≤ 5) ∧ w.toNat / 16 % 2 = 1))) ∧
    ∀ (s : State) (client : Client) (rest : List HostAction),
      Awaits s (writeCmd client w) rest →
      (w.toNat / 32 ≠ 0 ∨ (w.toNat % 16 = 0 ∨ 6 ≤ w.toNat % 16) ∨
        ((2 ≤ w.toNat % 16 ∧ w.toNat % 16 ≤ 5) ∧ w.toNat / 16 % 2 = 1)) →
      step s = .next { s with
        pending := rest, issuer := client, cmd := w
        status := { kind := .invalidCommand, cause := .none, busy := false } }

/-- A step whose action writes a legal word to CMD is `exec` of the decoded command, on the state in which CMD holds
the word (R29, R75); and `withFetchWord` makes that the next step from any state (log entry 1). -/
def Obligations.StepRunsTheDecodedCommand : Prop :=
  (∀ (s : State) (client : Client) (w : Word) (rest : List HostAction) (i : Instr),
    Awaits s (writeCmd client w) rest → decode w = .ok i →
    step s = exec i { s with pending := rest, issuer := client, cmd := w }) ∧
  ∀ (s : State) (w : Word) (i : Instr), decode w = .ok i →
    step (s.withFetchWord 32 w.toNat) =
      exec i { s with cmd := w, refusedMark := none, status := { s.status with busy := false } }

/-! ## The register block (10_state.md, 20_memory.md) -/

/-- R58: a register access of another width or off a multiple of 4 is refused, and every other one has a meaning: with
BUSY = 0 a read, and a write of anything but CMD, takes a next state. -/
def Obligations.RegisterAccessWidthAndAlignment : Prop :=
  ∀ (s : State) (client : Client) (width : Nat) (offset : BitVec 8) (value : Word) (rest : List HostAction),
    (Awaits s (.writeReg client width offset value) rest → (width ≠ 32 ∨ offset.toNat % 4 ≠ 0) →
      step s = .refused .badAccess) ∧
    (Awaits s (.readReg client width offset) rest → (width ≠ 32 ∨ offset.toNat % 4 ≠ 0) →
      step s = .refused .badAccess) ∧
    (Awaits s (.writeReg client width offset value) rest → width = 32 → offset.toNat % 4 = 0 → offset ≠ 0#8 →
      ∃ t, step s = .next t) ∧
    (Awaits s (.readReg client width offset) rest → width = 32 → offset.toNat % 4 = 0 → ∃ t, step s = .next t)

/-- A host write of an RW register other than CMD, at its offset of R28, changes that register and nothing else of the
block, and a read then returns the value: no register aliases another (R28, R41). -/
def Obligations.PlainRegisterWrite : Prop :=
  ∀ (s : State) (client : Client) (value : Word) (rest : List HostAction) (offset : BitVec 8),
    Awaits s (.writeReg client 32 offset value) rest →
    offset ∈ [0x08#8, 0x0C#8, 0x18#8, 0x1C#8, 0x20#8, 0x24#8, 0x28#8, 0x2C#8, 0x30#8] →
    ∃ t, step s = .next t ∧ readOffset t offset = value ∧
      (∀ other : BitVec 8, other ≠ offset → readOffset t other = readOffset s other) ∧
      t = { s with
        pending := rest, issuer := client, dinLo := t.dinLo, dinHi := t.dinHi, inBase := t.inBase, inLen := t.inLen
        inOff := t.inOff, outBase := t.outBase, outLen := t.outLen, outOff := t.outOff, count := t.count }

/-- A host write of an RO register or of a reserved offset is ignored, and a reserved offset reads as zero (R28). -/
def Obligations.ReadOnlyAndReservedOffsets : Prop :=
  ∀ (s : State) (client : Client) (value : Word) (rest : List HostAction) (offset : BitVec 8),
    (Awaits s (.writeReg client 32 offset value) rest → offset.toNat % 4 = 0 →
      (offset.toNat = 0x04 ∨ offset.toNat = 0x10 ∨ offset.toNat = 0x14 ∨ 0x34 ≤ offset.toNat) →
      step s = .next { s with pending := rest, issuer := client }) ∧
    (Awaits s (.readReg client 32 offset) rest → offset.toNat % 4 = 0 →
      ((0x34 ≤ offset.toNat ∧ offset.toNat ≤ 0x3C) ∨ 0x5C ≤ offset.toNat) →
      step s = .next { s with pending := rest, issuer := client, readLog := s.readLog ++ [0#32] })

/-- R93 with R36 to R39: reading the context view returns the current field, whether or not a context exists, and
changes nothing of the block; the values are given as numbers for a context in its ranges, and CTX_PARAMS for both
variants. -/
def Obligations.ContextViewReads : Prop :=
  ∀ (s : State) (client : Client) (rest : List HostAction) (offset : BitVec 8),
    ContextInRange s.ctx → Awaits s (.readReg client 32 offset) rest →
    offset ∈ [0x40#8, 0x44#8, 0x48#8, 0x4C#8, 0x50#8, 0x54#8, 0x58#8] →
    ∃ v : Word,
      step s = .next { s with pending := rest, issuer := client, readLog := s.readLog ++ [v] } ∧
      (offset = 0x40#8 →
        v.toNat = (if s.ctx.variant = .legacy then 1 else 0) + (if s.ctx.valid = true then 2 else 0)) ∧
      (offset = 0x44#8 → (v.toNat : Int) = s.ctx.response) ∧
      (offset = 0x48#8 → v.toInt = s.ctx.level) ∧
      (offset = 0x4C#8 → v.toNat = if s.ctx.lastBit = true then 1 else 0) ∧
      (offset = 0x50#8 → v.toInt = s.ctx.filteredLastLevel) ∧
      (offset = 0x54#8 → v.toInt = s.ctx.lowPassLevel) ∧
      (offset = 0x58#8 → v = if s.ctx.variant = .legacy then 0x64081407#32 else 0x8C0A0101#32)

/-- R84: a read of STATUS returns `(BUSY << 8) | (CAUSE << 2) | KIND`, also while BUSY = 1; in a state of the invariant it
is one of the six words of R84's table. -/
def Obligations.StatusWordReads : Prop :=
  ∀ (s : State) (client : Client) (rest : List HostAction),
    s.pending = .readReg client 32 0x04#8 :: rest → s.refusedMark = none →
    ∃ v : Word,
      step s = .next { s with pending := rest, issuer := client, readLog := s.readLog ++ [v] } ∧
      v.toNat = (if s.status.busy = true then 256 else 0) +
        4 * (match s.status.cause with
          | .none => 0
          | .count => 1
          | .inRange => 2
          | .outRange => 3) +
        (match s.status.kind with
          | .ok => 0
          | .invalidArgument => 1
          | .invalidCommand => 2
          | .noContext => 3) ∧
      (Inv s → v ∈ [0x00#32, 0x05#32, 0x09#32, 0x0D#32, 0x02#32, 0x03#32])

/-- While BUSY = 1 (no reachable state, log entry 7) every register access but a read of STATUS is refused, and so are a
reset and a host store to or load from a buffer of the buffer command in CMD; the read of STATUS shows the bit (R141
"Busy", R154, R164). -/
def Obligations.BusyRefusesHostAccess : Prop :=
  ∀ (s : State) (client : Client) (offset : BitVec 8) (value : Word) (rest : List HostAction),
    s.refusedMark = none → s.status.busy = true → offset.toNat % 4 = 0 →
    (s.pending = .writeReg client 32 offset value :: rest → step s = .refused .busy) ∧
    (s.pending = .readReg client 32 offset :: rest → offset ≠ 0x04#8 → step s = .refused .busy) ∧
    (s.pending = .reset :: rest → step s = .refused .busy) ∧
    (∀ (a : Nat) (v : Byte), s.pending = .storeMem a v :: rest → a < 2 ^ 32 → (s.cmd = 0x4#32 ∨ s.cmd = 0x5#32) →
      ((s.inBase.toNat ≤ a ∧ a < s.inBase.toNat + s.inLen.toNat) ∨
        (s.outBase.toNat ≤ a ∧ a < s.outBase.toNat + s.outLen.toNat)) → step s = .refused .busy) ∧
    (∀ a : Nat, s.pending = .loadMem a :: rest → a < 2 ^ 32 → (s.cmd = 0x4#32 ∨ s.cmd = 0x5#32) →
      ((s.inBase.toNat ≤ a ∧ a < s.inBase.toNat + s.inLen.toNat) ∨
        (s.outBase.toNat ≤ a ∧ a < s.outBase.toNat + s.outLen.toNat)) → step s = .refused .busy) ∧
    (s.pending = .readReg client 32 0x04#8 :: rest →
      ∃ v : Word, v.getLsbD 8 = true ∧
        step s = .next { s with pending := rest, issuer := client, readLog := s.readLog ++ [v] })

/-- The host's own store between commands: the stored byte reads back and every other byte is unchanged; an address
outside the 2^32 bytes faults, and a byte that is not RAM refuses (R54, R60, R170; log entry 8 for the two stops). -/
def Obligations.HostStoreChangesOneByte : Prop :=
  ∀ (s : State) (a : Nat) (v : Byte) (rest : List HostAction),
    Awaits s (.storeMem a v) rest →
    (2 ^ 32 ≤ a → step s = .fault .noSuchAddress) ∧
    (a < 2 ^ 32 → ¬ IsBacked s a → step s = .refused .unbacked) ∧
    (a < 2 ^ 32 → IsBacked s a → s.mem.wf →
      ∃ t, step s = .next t ∧ t = { s with pending := rest, mem := t.mem } ∧
        ∀ b, t.mem.read b = if b = a then v else s.mem.read b)

/-! ## Reset, idling and refusals (60_exceptions.md, 70_reset_and_hazards.md) -/

/-- R44, R153, R154: an assertion of the reset input puts every register and context field to its value of R44, and
neither reads nor writes host memory; `State.reset` has those values. That the RAM map and the host's coming actions
stay is the model's choice (log entry 12). -/
def Obligations.ResetPutsEveryRegister : Prop :=
  (∀ (s : State) (rest : List HostAction), Awaits s .reset rest →
    ∃ t, step s = .next t ∧
      t.ctx = { variant := .modern, response := 0, level := 0, lastBit := false, filteredLastLevel := 0,
                lowPassLevel := 0, valid := false } ∧
      t.cmd = 0#32 ∧ t.status = { kind := .ok, cause := .none, busy := false } ∧
      t.dinLo = 0#32 ∧ t.dinHi = 0#32 ∧ t.doutLo = 0#32 ∧ t.doutHi = 0#32 ∧
      t.inBase = 0#32 ∧ t.inLen = 0#32 ∧ t.inOff = 0#32 ∧ t.outBase = 0#32 ∧ t.outLen = 0#32 ∧ t.outOff = 0#32 ∧
      t.count = 0#32 ∧ t.mem = s.mem ∧ t.ram = s.ram ∧ t.pending = rest) ∧
  State.reset.ctx = { variant := .modern, response := 0, level := 0, lastBit := false, filteredLastLevel := 0,
                      lowPassLevel := 0, valid := false } ∧
  State.reset.cmd = 0#32 ∧ State.reset.status = { kind := .ok, cause := .none, busy := false } ∧
  State.reset.dinLo = 0#32 ∧ State.reset.dinHi = 0#32 ∧ State.reset.doutLo = 0#32 ∧ State.reset.doutHi = 0#32 ∧
  State.reset.inBase = 0#32 ∧ State.reset.inLen = 0#32 ∧ State.reset.inOff = 0#32 ∧ State.reset.outBase = 0#32 ∧
  State.reset.outLen = 0#32 ∧ State.reset.outOff = 0#32 ∧ State.reset.count = 0#32

/-- With no host action waiting the block idles and retains all state (R149, R155). -/
def Obligations.IdleStepRetainsAllState : Prop :=
  ∀ s : State, s.pending = [] → s.refusedMark = none → step s = .next s

/-- R142: no later step and no reset clears a refused mark, a marked run never ends, and STATUS never records a refusal.
That a refused step leaves everything but the mark, and that a marked run stays in one state, is the model's (log entry
3). -/
def Obligations.RefusedMarkStays : Prop :=
  ∀ (s : State) (r : Refusal),
    (s.refusedMark = none → step s = .refused r → stepMarked s = { s with refusedMark := some r }) ∧
    (s.refusedMark = some r → ∀ k, runMarked k s = s ∧ ¬ Ended (runMarked k s))

/-- The invariant holds at reset (R44; the memory clauses are the model's canonical form). -/
def Obligations.InvariantAtReset : Prop :=
  Inv State.reset

/-- Every step keeps the invariant: the ranges of R45, R47 and R49, the floor of R48, the STATUS words of R84 with BUSY
0, and the memory's canonical form within the 2^32 bytes. -/
def Obligations.StepKeepsInvariant : Prop :=
  ∀ s t : State, Inv s → step s = .next t → Inv t

/-- One host alone never meets the Shared refusal, and stays alone (R141, R163; the record of users is log entry 6). -/
def Obligations.SingleHostIsNeverRefusedAsShared : Prop :=
  ∀ (h : Nat) (s : State), SingleHost h s → s.refusedMark = none →
    step s ≠ .refused .shared ∧ ∀ t, step s = .next t → SingleHost h t

/-! ## INIT (40_context.md) -/

/-- R90: INIT writes the seven context fields and STATUS, in every state, and leaves everything else; its two words
run it, and a word with OP = 0x1 and RSVD ≠ 0 does not. The record of users (log entry 6) is the model's own and is left
open here. -/
def Obligations.InitConstructsAContext : Prop :=
  (∀ (s : State) (v : Variant), ∃ t, exec (.init v) s = .next t ∧
    t = { s with
      ctx := { variant := v, response := 0, level := 0, lastBit := false, filteredLastLevel := 0, lowPassLevel := 0,
               valid := true }
      status := { kind := .ok, cause := .none, busy := false }
      users := t.users }) ∧
  (∀ (s : State) (client : Client) (w : Word) (rest : List HostAction),
    Awaits s (writeCmd client w) rest → w.toNat % 16 = 1 →
    (w.toNat / 32 = 0 → step s =
      exec (.init (if w.toNat / 16 = 1 then .legacy else .modern))
        { s with pending := rest, issuer := client, cmd := w }) ∧
    (w.toNat / 32 ≠ 0 → step s = .next { s with
      pending := rest, issuer := client, cmd := w
      status := { kind := .invalidCommand, cause := .none, busy := false } }))

/-- R19 and R91: no command but INIT changes `variant` (nor `valid`, R25); over steps, only an INIT command and reset
do, and reset leaves no context. -/
def Obligations.OnlyInitChangesTheVariant : Prop :=
  (∀ (i : Instr) (s t : State), exec i s = .next t → (∀ v, i ≠ .init v) →
    t.ctx.variant = s.ctx.variant ∧ t.ctx.valid = s.ctx.valid) ∧
  ∀ s t : State, step s = .next t →
    (t.ctx.variant = s.ctx.variant ∧ t.ctx.valid = s.ctx.valid) ∨
    (∃ rest, s.pending = .reset :: rest ∧ t.ctx.valid = false) ∨
    ∃ client w rest v, s.pending = writeCmd client w :: rest ∧ decode w = .ok (.init v) ∧ t.ctx.variant = v

/-- R92 and R135: without a context the four other commands write STATUS = 0x00000003 and change nothing else. -/
def Obligations.NoContextGate : Prop :=
  ∀ (i : Instr) (s : State), s.ctx.valid = false → (∀ v, i ≠ .init v) →
    exec i s = .next { s with status := { kind := .noContext, cause := .none, busy := false } }

/-! ## ADVANCE (41_predictor.md) -/

/-- R96 to R105: ADVANCE as one formula for both variants, with R12's shift as the floor quotient and R18's constants as
numbers. Every other field is unchanged (R107), and R103's clamp is Modern's alone (C1). -/
def Obligations.AdvanceFormula : Prop :=
  ∀ (bit : Bool) (c : Context),
    advance bit c =
      let target : Int := if bit = true then 127 else -128
      let scaled : Int := match c.variant with
        | .legacy => c.level + (c.response * (target - c.level) + 128).fdiv 256
        | .modern => c.level + (c.response * (target - c.level) + 512).fdiv 1024
      let nlevel : Int := if scaled = c.level ∧ c.level ≠ target then scaled + (if bit = true then 1 else -1) else scaled
      let rtarget : Int := match c.variant with
        | .legacy => if bit = c.lastBit then 255 else 0
        | .modern => if bit = c.lastBit then 1023 else 0
      let rdelta : Int := match c.variant with
        | .legacy => if bit = c.lastBit then 7 else 20
        | .modern => 1
      let moved : Int := match c.variant with
        | .legacy => c.response + (rdelta * (rtarget - c.response) + 128).fdiv 256
        | .modern => c.response
      let nudged : Int :=
        if moved = c.response ∧ c.response ≠ rtarget then moved + (if bit = c.lastBit then 1 else -1) else moved
      let nresponse : Int := match c.variant with
        | .legacy => nudged
        | .modern => if nudged < 8 then 8 else nudged
      { c with response := nresponse, level := nlevel, lastBit := bit }

/-- R45 and R46: for a context in its ranges ADVANCE moves `level` strictly toward the rail and never past it, and
leaves it at the rail. -/
def Obligations.AdvanceMovesTowardTheRail : Prop :=
  ∀ (c : Context), ContextInRange c →
    (c.level < 127 → c.level < (advance true c).level ∧ (advance true c).level ≤ 127) ∧
    (-128 < c.level → (advance false c).level < c.level ∧ -128 ≤ (advance false c).level) ∧
    (c.level = 127 → (advance true c).level = 127) ∧
    (c.level = -128 → (advance false c).level = -128)

/-- R47 and R48: `response` stays in [0, RMAX]; Modern's is 8 or more after any ADVANCE, from any state, and 0 after
INIT. -/
def Obligations.ResponseRangeAndFloor : Prop :=
  (∀ (bit : Bool) (c : Context), ContextInRange c →
    0 ≤ (advance bit c).response ∧
    (c.variant = .legacy → (advance bit c).response ≤ 255) ∧
    (c.variant = .modern → (advance bit c).response ≤ 1023)) ∧
  (∀ (bit : Bool) (c : Context), c.variant = .modern → 8 ≤ (advance bit c).response) ∧
  ∀ (s : State) (v : Variant), ∃ t, exec (.init v) s = .next t ∧ t.ctx.response = 0

/-- R108's ramp: from the floor up, Modern's `response` changes by +1 for a continuing bit until 1023 and by -1 for a
transition down to 8; from the initial 0 it lands on 8. -/
def Obligations.ModernResponseRamp : Prop :=
  ∀ (bit : Bool) (c : Context), c.variant = .modern →
    (8 ≤ c.response → c.response ≤ 1023 →
      (advance bit c).response =
        if bit = c.lastBit then min (c.response + 1) 1023 else max (c.response - 1) 8) ∧
    (c.response = 0 → (advance bit c).response = 8)

/-- R50: the intermediates of a step, for every context in its ranges and every `blevel` in [-128, 127], stay within
the magnitudes of its table. The last one has the level after ADVANCE, as R121 uses it. -/
def Obligations.IntermediatesFitTwentyBits : Prop :=
  ∀ (bit : Bool) (c : Context) (blevel : Int), ContextInRange c → -128 ≤ blevel → blevel ≤ 127 →
    (c.variant = .legacy →
      abs (c.response * (railTarget bit - c.level) + 2 ^ ((consts c.variant).respPrec - 1)) ≤ 65153 ∧
      abs (responseDelta bit c * (responseTarget bit c - c.response) + 128) ≤ 4972 ∧
      abs ((consts c.variant).lpfStrength * (blevel - c.lowPassLevel) + 128) ≤ 25628) ∧
    (c.variant = .modern →
      abs (c.response * (railTarget bit - c.level) + 2 ^ ((consts c.variant).respPrec - 1)) ≤ 261377 ∧
      abs ((consts c.variant).lpfStrength * (blevel - c.lowPassLevel) + 128) ≤ 35828) ∧
    abs (c.filteredLastLevel + (advance bit c).level + 1) ≤ 255

/-! ## Encode (42_encode.md) -/

/-- R109 and R111: the decision on the pre-update level, with a tie giving 1 only at the top rail. -/
def Obligations.EncoderDecision : Prop :=
  ∀ (x : Int) (c : Context),
    (encodeBit x c = true ↔ x > c.level ∨ (x = c.level ∧ c.level = 127)) ∧
    encodeNext x c = advance (encodeBit x c) c

/-- R113 with R78, R112 and R82: without a context ENC8 is NO_CONTEXT; with one that is not shared (log entry
6) sample `j` is byte `j` of DIN as a signed number, bit `j` of the code byte is decided on the context that
sample `j-1` left, and nothing but the context, DOUT and STATUS changes. -/
def Obligations.Enc8EncodesAGroup : Prop :=
  (∀ s : State, s.ctx.valid = false →
    exec .enc8 s = .next { s with status := { kind := .noContext, cause := .none, busy := false } }) ∧
  ∀ s : State, s.ctx.valid = true → ¬ SharedClients s →
    ∃ (t : State) (c : Nat → Context) (b : Nat → Bool), exec .enc8 s = .next t ∧
      c 0 = s.ctx ∧
      (∀ j < 8,
        let x : Int := (if j < 4 then s.dinLo.extractLsb' (8 * j) 8 else s.dinHi.extractLsb' (8 * (j - 4)) 8).toInt
        (b j = true ↔ x > (c j).level ∨ (x = (c j).level ∧ (c j).level = 127)) ∧ c (j + 1) = advance (b j) (c j)) ∧
      (∀ j < 8, t.doutLo.getLsbD j = b j) ∧ t.doutLo.toNat < 256 ∧
      t = { s with
        ctx := c 8, doutLo := t.doutLo, doutHi := 0#32, status := { kind := .ok, cause := .none, busy := false }
        users := t.users }

/-- R117: encode writes only `response`, `level` and `lastBit` of the context, so never `filteredLastLevel` or
`lowPassLevel`, and never reads those two: neither the bits nor the other fields depend on them. -/
def Obligations.EncodeIgnoresTheDecodeFields : Prop :=
  (∀ (i : Instr) (s t : State), (i = .enc8 ∨ i = .encb) → exec i s = .next t →
    t.ctx = { s.ctx with response := t.ctx.response, level := t.ctx.level, lastBit := t.ctx.lastBit }) ∧
  ∀ (xs : List Int) (c : Context) (f p : Int),
    encodeBits xs { c with filteredLastLevel := f, lowPassLevel := p } = encodeBits xs c ∧
    encodeContext xs { c with filteredLastLevel := f, lowPassLevel := p } =
      { encodeContext xs c with filteredLastLevel := f, lowPassLevel := p }

/-- R114 and R133, in the priority of R136: which outcome ENCB has on illegal arguments, on overlapping ranges (R65) and
on unbacked bytes (R60). Each STATUS outcome changes nothing but STATUS. -/
def Obligations.EncbRejects : Prop :=
  ∀ s : State, s.ctx.valid = true →
    let n := s.count.toInt
    (EncodeCountIllegal s →
      exec .encb s = .next { s with status := { kind := .invalidArgument, cause := .count, busy := false } }) ∧
    (¬ EncodeCountIllegal s → InputOutOfBounds s n →
      exec .encb s = .next { s with status := { kind := .invalidArgument, cause := .inRange, busy := false } }) ∧
    (¬ EncodeCountIllegal s → ¬ InputOutOfBounds s n → OutputOutOfBounds s (n / 8) →
      exec .encb s = .next { s with status := { kind := .invalidArgument, cause := .outRange, busy := false } }) ∧
    (¬ EncodeCountIllegal s → ¬ InputOutOfBounds s n → ¬ OutputOutOfBounds s (n / 8) →
      (RangesOverlap s n (n / 8) → exec .encb s = .refused .overlap) ∧
      (¬ RangesOverlap s n (n / 8) → SomeUnbacked s n (n / 8) → exec .encb s = .refused .unbacked))

/-- R115 and R116 with R63 and R64: an accepted ENCB takes a next state; sample `j` is the byte at `ib + io + j`, bit `j`
is decided on the context that sample `j-1` left, code byte `g` at `ob + oo + g` holds bits `8g` to `8g+7` LSB first,
every other byte reads as before, and nothing but the context, that memory and STATUS changes. -/
def Obligations.EncbEncodesABuffer : Prop :=
  ∀ s : State, EncodeAccepted s → s.mem.wf →
    ∃ (t : State) (c : Nat → Context) (b : Nat → Bool), exec .encb s = .next t ∧
      c 0 = s.ctx ∧
      (∀ j < s.count.toInt.toNat,
        let x : Int := (s.mem.read (s.inAddr + j)).toInt
        (b j = true ↔ x > (c j).level ∨ (x = (c j).level ∧ (c j).level = 127)) ∧ c (j + 1) = advance (b j) (c j)) ∧
      (∀ g < s.count.toInt.toNat / 8, ∀ k < 8, (t.mem.read (s.outAddr + g)).getLsbD k = b (8 * g + k)) ∧
      (∀ a, (a < s.outAddr ∨ s.outAddr + s.count.toInt.toNat / 8 ≤ a) → t.mem.read a = s.mem.read a) ∧
      (s.inAddr : Int) = s.inBase.toNat + s.inOff.toInt ∧ (s.outAddr : Int) = s.outBase.toNat + s.outOff.toInt ∧
      t = { s with
        ctx := c s.count.toInt.toNat, mem := t.mem, status := { kind := .ok, cause := .none, busy := false }
        users := t.users }

/-- R118: one accepted ENCB over two chunks equals two ENCBs, the second with its offsets advanced past the first and no
INIT between: same memory, same context. The offsets must be expressible as signed 32-bit values (R83). -/
def Obligations.EncbChunkingEquivalence : Prop :=
  ∀ (s t : State) (n₁ n₂ : Nat), 0 < n₁ → n₁ % 8 = 0 → 0 < n₂ → n₂ % 8 = 0 → n₁ + n₂ < 2 ^ 31 →
    s.inOff.toInt + n₁ < 2 ^ 31 → s.outOff.toInt + n₁ / 8 < 2 ^ 31 →
    s.count = BitVec.ofNat 32 (n₁ + n₂) → exec .encb s = .next t → t.status.kind = .ok →
    ∃ u v, exec .encb { s with count := BitVec.ofNat 32 n₁ } = .next u ∧ u.status.kind = .ok ∧
      exec .encb { u with
        count := BitVec.ofNat 32 n₂, inOff := s.inOff + BitVec.ofNat 32 n₁
        outOff := s.outOff + BitVec.ofNat 32 (n₁ / 8) } = .next v ∧ v.status.kind = .ok ∧
      v.ctx = t.ctx ∧ v.mem = t.mem

/-- R118's clause on ENC8 (and R116's corner case for one group): an accepted ENCB is ENC8 run group by group, with the
group's eight memory bytes in DIN: the same final context, and code byte `g` is the one that the `g`-th ENC8 puts into
DOUT. -/
def Obligations.EncbIsEnc8GroupByGroup : Prop :=
  ∀ s t : State, EncodeAccepted s → s.mem.wf → exec .encb s = .next t →
    ∃ u : Nat → State, u 0 = s ∧
      (∀ g < s.count.toInt.toNat / 8,
        let m : Nat → Byte := fun j => s.mem.read (s.inAddr + (8 * g + j))
        exec .enc8 { u g with dinLo := m 3 ++ (m 2 ++ (m 1 ++ m 0)), dinHi := m 7 ++ (m 6 ++ (m 5 ++ m 4)) } =
          .next (u (g + 1)) ∧
        t.mem.read (s.outAddr + g) = (u (g + 1)).doutLo.extractLsb' 0 8) ∧
      (u (s.count.toInt.toNat / 8)).ctx = t.ctx

/-! ## Decode (43_decode.md) -/

/-- R119 to R125: DECSTEP with the floor shifts as quotients and R18's strengths as numbers; `prevBit` and
`filteredLastLevel` are read before they are written, and the emitted byte is the low 8 bits of `lowPassLevel`. -/
def Obligations.DecodeStepFormula : Prop :=
  ∀ (bit : Bool) (c : Context),
    (decodeNext bit c =
      let a := advance bit c
      let strength : Int := match c.variant with
        | .legacy => 100
        | .modern => 140
      let blevel : Int := if bit = c.lastBit then a.level else (c.filteredLastLevel + a.level + 1).fdiv 2
      { a with
        filteredLastLevel := a.level
        lowPassLevel := c.lowPassLevel + (strength * (blevel - c.lowPassLevel) + 0x80).fdiv 256 }) ∧
    decodeSample bit c = BitVec.ofInt 8 (decodeNext bit c).lowPassLevel

/-- R49: the decode-side fields and `blevel` stay in [-128, 127], and the new `lowPassLevel` lies between the old one
and `blevel`. -/
def Obligations.DecodeFieldsStayInRange : Prop :=
  ∀ (bit : Bool) (c : Context), ContextInRange c →
    let blevel := shapedLevel bit c (advance bit c)
    let lp := (decodeNext bit c).lowPassLevel
    (-128 : Int) ≤ blevel ∧ blevel ≤ 127 ∧
    -128 ≤ (decodeNext bit c).filteredLastLevel ∧ (decodeNext bit c).filteredLastLevel ≤ 127 ∧
    min c.lowPassLevel blevel ≤ lp ∧ lp ≤ max c.lowPassLevel blevel ∧ -128 ≤ lp ∧ lp ≤ 127

/-- R130: on a context in its ranges the emitted sample is `lowPassLevel` itself, so wrap-around and saturation agree
there; on any context the emitted byte is its low 8 bits. -/
def Obligations.NarrowingIsTheIdentityInRange : Prop :=
  ∀ (bit : Bool) (c : Context),
    (ContextInRange c → (decodeSample bit c).toInt = (decodeNext bit c).lowPassLevel) ∧
    ((decodeSample bit c).toNat : Int) = (decodeNext bit c).lowPassLevel % 256

/-- R126 with R79 and R82: without a context DEC8 is NO_CONTEXT; with one that is not shared (log entry 6)
bit `j` of DIN_LO[7:0] drives the `j`-th DECSTEP, lane `j` of DOUT is its emitted byte, and nothing but the context,
DOUT and STATUS changes. -/
def Obligations.Dec8DecodesAByte : Prop :=
  (∀ s : State, s.ctx.valid = false →
    exec .dec8 s = .next { s with status := { kind := .noContext, cause := .none, busy := false } }) ∧
  ∀ s : State, s.ctx.valid = true → ¬ SharedClients s →
    ∃ (t : State) (c : Nat → Context), exec .dec8 s = .next t ∧
      c 0 = s.ctx ∧ (∀ j < 8, c (j + 1) = decodeNext (s.dinLo.getLsbD j) (c j)) ∧
      (∀ j < 8, (if j < 4 then t.doutLo.extractLsb' (8 * j) 8 else t.doutHi.extractLsb' (8 * (j - 4)) 8) =
        BitVec.ofInt 8 (c (j + 1)).lowPassLevel) ∧
      t = { s with
        ctx := c 8, doutLo := t.doutLo, doutHi := t.doutHi, status := { kind := .ok, cause := .none, busy := false }
        users := t.users }

/-- R79: DIN_LO[31:8] and DIN_HI are ignored by DEC8: other values there give the same context, DOUT and STATUS. -/
def Obligations.Dec8IgnoresTheOtherDinBits : Prop :=
  ∀ (s t : State) (lo hi : Word), lo.extractLsb' 0 8 = s.dinLo.extractLsb' 0 8 → exec .dec8 s = .next t →
    exec .dec8 { s with dinLo := lo, dinHi := hi } = .next { t with dinLo := lo, dinHi := hi }

/-- R127 and R133, in the priority of R136: which outcome DECB has on illegal arguments, on overlapping ranges (R65) and
on unbacked bytes (R60). -/
def Obligations.DecbRejects : Prop :=
  ∀ s : State, s.ctx.valid = true →
    let n := s.count.toInt
    (DecodeCountIllegal s →
      exec .decb s = .next { s with status := { kind := .invalidArgument, cause := .count, busy := false } }) ∧
    (¬ DecodeCountIllegal s → InputOutOfBounds s n →
      exec .decb s = .next { s with status := { kind := .invalidArgument, cause := .inRange, busy := false } }) ∧
    (¬ DecodeCountIllegal s → ¬ InputOutOfBounds s n → OutputOutOfBounds s (8 * n) →
      exec .decb s = .next { s with status := { kind := .invalidArgument, cause := .outRange, busy := false } }) ∧
    (¬ DecodeCountIllegal s → ¬ InputOutOfBounds s n → ¬ OutputOutOfBounds s (8 * n) →
      (RangesOverlap s n (8 * n) → exec .decb s = .refused .overlap) ∧
      (¬ RangesOverlap s n (8 * n) → SomeUnbacked s n (8 * n) → exec .decb s = .refused .unbacked))

/-- R128 and R129 with R63 and R64: an accepted DECB takes a next state; bit `k` of the byte at `ib + io + g` drives
DECSTEP number `8g+k`, whose emitted byte stands at `ob + oo + 8g+k`; every other byte reads as before, and nothing but
the context, that memory and STATUS changes. With COUNT = 0 that is STATUS alone. -/
def Obligations.DecbDecodesABuffer : Prop :=
  ∀ s : State, DecodeAccepted s → s.mem.wf →
    ∃ (t : State) (c : Nat → Context), exec .decb s = .next t ∧
      c 0 = s.ctx ∧
      (∀ g < s.count.toInt.toNat, ∀ k < 8,
        c (8 * g + k + 1) = decodeNext ((s.mem.read (s.inAddr + g)).getLsbD k) (c (8 * g + k))) ∧
      (∀ j < 8 * s.count.toInt.toNat, t.mem.read (s.outAddr + j) = BitVec.ofInt 8 (c (j + 1)).lowPassLevel) ∧
      (∀ a, (a < s.outAddr ∨ s.outAddr + 8 * s.count.toInt.toNat ≤ a) → t.mem.read a = s.mem.read a) ∧
      (s.inAddr : Int) = s.inBase.toNat + s.inOff.toInt ∧ (s.outAddr : Int) = s.outBase.toNat + s.outOff.toInt ∧
      t = { s with
        ctx := c (8 * s.count.toInt.toNat), mem := t.mem, status := { kind := .ok, cause := .none, busy := false }
        users := t.users } ∧
      (s.count = 0#32 → t.mem = s.mem ∧ t.ctx = s.ctx)

/-- R131: one accepted DECB over two parts equals two DECBs, the second with its offsets advanced past the first and no
INIT between: same memory, same context. The offsets must be expressible as signed 32-bit values (R83). -/
def Obligations.DecbChunkingEquivalence : Prop :=
  ∀ (s t : State) (n₁ n₂ : Nat), n₁ + n₂ < 2 ^ 31 →
    s.inOff.toInt + n₁ < 2 ^ 31 → s.outOff.toInt + 8 * n₁ < 2 ^ 31 →
    s.count = BitVec.ofNat 32 (n₁ + n₂) → exec .decb s = .next t → t.status.kind = .ok →
    ∃ u v, exec .decb { s with count := BitVec.ofNat 32 n₁ } = .next u ∧ u.status.kind = .ok ∧
      exec .decb { u with
        count := BitVec.ofNat 32 n₂, inOff := s.inOff + BitVec.ofNat 32 n₁
        outOff := s.outOff + BitVec.ofNat 32 (8 * n₁) } = .next v ∧ v.status.kind = .ok ∧
      v.ctx = t.ctx ∧ v.mem = t.mem

/-- R131's clause on DEC8: an accepted DECB is DEC8 run byte by byte, with the code byte in DIN_LO: the same final context,
and the eight bytes stored for code byte `g` are the lanes that the `g`-th DEC8 puts into DOUT. -/
def Obligations.DecbIsDec8ByteByByte : Prop :=
  ∀ s t : State, DecodeAccepted s → s.mem.wf → exec .decb s = .next t →
    ∃ u : Nat → State, u 0 = s ∧
      (∀ g < s.count.toInt.toNat,
        exec .dec8 { u g with dinLo := (s.mem.read (s.inAddr + g)).setWidth 32 } = .next (u (g + 1)) ∧
        ∀ j < 8, t.mem.read (s.outAddr + (8 * g + j)) =
          if j < 4 then (u (g + 1)).doutLo.extractLsb' (8 * j) 8
          else (u (g + 1)).doutHi.extractLsb' (8 * (j - 4)) 8) ∧
      (u s.count.toInt.toNat).ctx = t.ctx

/-- R51: INIT leaves `filteredLastLevel = level` and the decode commands keep it, while an ENCSTEP can break it; where it
holds, `blevel` at a transition is the upward-rounded average of the level before and the level after. -/
def Obligations.DecodeKeepsTheSnapshot : Prop :=
  (∀ (s : State) (v : Variant), ∃ t, exec (.init v) s = .next t ∧ t.ctx.filteredLastLevel = t.ctx.level) ∧
  (∀ (i : Instr) (s t : State), (i = .dec8 ∨ i = .decb) → s.ctx.filteredLastLevel = s.ctx.level →
    exec i s = .next t → t.ctx.filteredLastLevel = t.ctx.level) ∧
  (∃ (x : Int) (c : Context), c.filteredLastLevel = c.level ∧
    (encodeNext x c).filteredLastLevel ≠ (encodeNext x c).level) ∧
  ∀ (bit : Bool) (c : Context), c.filteredLastLevel = c.level → bit ≠ c.lastBit →
    2 * shapedLevel bit c (advance bit c) - 1 ≤ c.level + (advance bit c).level ∧
    c.level + (advance bit c).level ≤ 2 * shapedLevel bit c (advance bit c)

/-- The decoder follows the encoder: decoding the byte that ENC8 has just produced, from the context ENC8 started with,
ends with the encoder's `response`, `level` and `lastBit`, because both ran ADVANCE on the same bits (R106, R110,
R125; 95_test_vectors.md L2.7). -/
def Obligations.DecoderFollowsTheEncoder : Prop :=
  ∀ s : State, s.ctx.valid = true → ¬ SharedClients s →
    ∃ t v, exec .enc8 s = .next t ∧ exec .dec8 { s with dinLo := t.doutLo } = .next v ∧
      v.ctx.response = t.ctx.response ∧ v.ctx.level = t.ctx.level ∧ v.ctx.lastBit = t.ctx.lastBit ∧
      v.ctx.variant = t.ctx.variant

/-! ## Rules over all commands (60_exceptions.md) -/

/-- R137: a command rejected with KIND 1, 2 or 3, legal word or not, writes STATUS and nothing else. -/
def Obligations.RejectionIsAtomic : Prop :=
  ∀ (w : Word) (s t : State), runCommand w s = .next t → t.status.kind ≠ .ok → t = { s with status := t.status }

/-- R151, with CMD of D20: no command writes CMD, DIN or an operand register; only an accepted ENC8 or DEC8 writes
DOUT. -/
def Obligations.CommandsLeaveOperandRegisters : Prop :=
  ∀ (i : Instr) (s t : State), exec i s = .next t →
    t.cmd = s.cmd ∧ t.dinLo = s.dinLo ∧ t.dinHi = s.dinHi ∧ t.inBase = s.inBase ∧ t.inLen = s.inLen ∧
    t.inOff = s.inOff ∧ t.outBase = s.outBase ∧ t.outLen = s.outLen ∧ t.outOff = s.outOff ∧ t.count = s.count ∧
    (((i ≠ .enc8 ∧ i ≠ .dec8) ∨ t.status.kind ≠ .ok) → t.doutLo = s.doutLo ∧ t.doutHi = s.doutHi)

/-- R150: STATUS is not sticky. What a command does, its STATUS outcome included, does not depend on the STATUS that an
earlier command left. -/
def Obligations.StatusIsNotSticky : Prop :=
  ∀ (w : Word) (s t : State) (old : Status), runCommand w s = .next t →
    runCommand w { s with status := old } = .next t ∧ t.status.busy = false

/-- R132 and R152: every command write ends in a STATUS outcome or in one of the refusals of R141 that a command can
meet, and never in a fault; INIT, and with one client ENC8 and DEC8, always end in a STATUS outcome. -/
def Obligations.CommandsNeverHang : Prop :=
  ∀ (w : Word) (s : State),
    ((∃ t, runCommand w s = .next t) ∨ runCommand w s = .refused .overlap ∨ runCommand w s = .refused .unbacked ∨
      runCommand w s = .refused .shared) ∧
    (¬ SharedClients s → decode w ≠ .ok .encb → decode w ≠ .ok .decb → ∃ t, runCommand w s = .next t)

/-- R52: what a command does is a function of the context, the word and the operand registers and, for the buffer
commands, the bytes of the input range: two states that agree on these (and on the RAM map and the client check) have
the same context, STATUS and DOUT after an accepted ENC8 or DEC8, and each memory byte is either unchanged in both or
equal in both. -/
def Obligations.CommandsAreFunctionsOfTheirInputs : Prop :=
  ∀ (i : Instr) (s u : State), s.mem.wf → u.mem.wf → s.ctx = u.ctx → s.dinLo = u.dinLo → s.dinHi = u.dinHi →
    s.inBase = u.inBase → s.inLen = u.inLen → s.inOff = u.inOff → s.outBase = u.outBase → s.outLen = u.outLen →
    s.outOff = u.outOff → s.count = u.count → s.ram = u.ram → (SharedClients s ↔ SharedClients u) →
    ((i = .encb ∨ i = .decb) →
      ∀ k < s.count.toInt.toNat, s.mem.read (s.inAddr + k) = u.mem.read (s.inAddr + k)) →
    (∃ t t', exec i s = .next t ∧ exec i u = .next t' ∧ t.ctx = t'.ctx ∧ t.status = t'.status ∧
      ((i = .enc8 ∨ i = .dec8) → t.status.kind = .ok → t.doutLo = t'.doutLo ∧ t.doutHi = t'.doutHi) ∧
      ∀ a, (t.mem.read a = s.mem.read a ∧ t'.mem.read a = u.mem.read a) ∨ t.mem.read a = t'.mem.read a) ∨
    ∃ r, exec i s = .refused r ∧ exec i u = .refused r

/-- R26, R141 "Shared", R163: a command that would otherwise be accepted is refused when, with its client, the context's
users are two hosts and two streams, or two hosts by turns (the reading of log entry 6). -/
def Obligations.SharedContextIsRefused : Prop :=
  ∀ s : State, SharedClients s → s.ctx.valid = true →
    exec .enc8 s = .refused .shared ∧ exec .dec8 s = .refused .shared ∧
    (¬ EncodeCountIllegal s → ¬ InputOutOfBounds s s.count.toInt → ¬ OutputOutOfBounds s (s.count.toInt / 8) →
      ¬ RangesOverlap s s.count.toInt (s.count.toInt / 8) → ¬ SomeUnbacked s s.count.toInt (s.count.toInt / 8) →
      exec .encb s = .refused .shared) ∧
    (¬ DecodeCountIllegal s → ¬ InputOutOfBounds s s.count.toInt → ¬ OutputOutOfBounds s (8 * s.count.toInt) →
      ¬ RangesOverlap s s.count.toInt (8 * s.count.toInt) → ¬ SomeUnbacked s s.count.toInt (8 * s.count.toInt) →
      exec .decb s = .refused .shared)

/-! ## Host statements (30_encoding.md R87, R88) -/

/-- R88's ENC8 statement: after its two DIN writes the word DIN_LO holds `s0` to `s3` and DIN_HI `s4` to `s7`, the first
in bits 7:0, and its third step is `exec .enc8` on exactly that state. -/
def Obligations.Enc8StatementRuns : Prop :=
  ∀ (s : State) (client : Client) (s0 s1 s2 s3 s4 s5 s6 s7 : Int) (rest : List HostAction),
    s.pending = (HostStatement.enc8 s0 s1 s2 s3 s4 s5 s6 s7).expand client ++ rest →
    s.refusedMark = none → s.status.busy = false →
    ∃ u : State,
      u = { s with pending := rest, issuer := client, cmd := 0x2#32, dinLo := u.dinLo, dinHi := u.dinHi } ∧
      (u.dinLo.toNat : Int) = s0 % 256 + 256 * (s1 % 256) + 65536 * (s2 % 256) + 16777216 * (s3 % 256) ∧
      (u.dinHi.toNat : Int) = s4 % 256 + 256 * (s5 % 256) + 65536 * (s6 % 256) + 16777216 * (s7 % 256) ∧
      ∀ t, exec .enc8 u = .next t → runMarked 3 s = t

/-- R88's ENCB and DECB statements: their seven operand writes and the command write are eight steps, of which the last
is `exec` on the state in which each operand register holds its operand as a 32-bit two's complement. An operand that fits
no 32-bit word is taken modulo 2^32 (log entry 14). -/
def Obligations.BufferStatementsRun : Prop :=
  ∀ (s t : State) (client : Client) (output input : BufferArgument) (n : Int) (rest : List HostAction) (i : Instr),
    ((i = .encb ∧ s.pending = (HostStatement.encb output input n).expand client ++ rest) ∨
      (i = .decb ∧ s.pending = (HostStatement.decb output input n).expand client ++ rest)) →
    s.refusedMark = none → s.status.busy = false →
    exec i { s with
      pending := rest, issuer := client, cmd := if i = .encb then 0x4#32 else 0x5#32
      outBase := BitVec.ofInt 32 output.base, outLen := BitVec.ofInt 32 output.length
      outOff := BitVec.ofInt 32 output.offset, inBase := BitVec.ofInt 32 input.base
      inLen := BitVec.ofInt 32 input.length, inOff := BitVec.ofInt 32 input.offset
      count := BitVec.ofInt 32 n } = .next t →
    runMarked 8 s = t

/-- R88's DEC8, INIT and CMD statements: DEC8 writes DIN_LO alone, so that DIN_HI is as it was, and its second step is
`exec .dec8`; INIT and CMD are one step each, which runs their word. An operand that fits no 32-bit word is taken modulo
2^32 (log entry 14). -/
def Obligations.CommandStatementsRun : Prop :=
  ∀ (s : State) (client : Client) (rest : List HostAction), s.refusedMark = none → s.status.busy = false →
    (∀ (c : Int) (t : State), s.pending = (HostStatement.dec8 c).expand client ++ rest →
      exec .dec8 { s with pending := rest, issuer := client, cmd := 0x3#32, dinLo := BitVec.ofInt 32 c } = .next t →
      runMarked 2 s = t) ∧
    (∀ v : Variant, s.pending = (HostStatement.init v).expand client ++ rest →
      step s = exec (.init v) { s with
        pending := rest, issuer := client, cmd := if v = .legacy then 0x11#32 else 0x1#32 }) ∧
    ∀ w : Word, s.pending = (HostStatement.cmd w).expand client ++ rest →
      step s = runCommand w { s with pending := rest, issuer := client, cmd := w }

/-- R173: a clean-entry state is the reset state with the program's actions, a memory in which each MEM byte that no later
statement names has its value, and a RAM map that backs every MEM byte; where the map does not, or a byte is outside
the 2^32 of R54, there is none. Of two statements for one byte the later one counts (both choices: log entry 13). R173
leaves the bytes that no MEM statement names unspecified: that such a byte reads as State.reset's memory does is the
model's choice (log entry 4). -/
def Obligations.LaunchMeetsItsPremise : Prop :=
  ∀ (client : Client) (program : List HostStatement) (ram : List Region),
    (launch client program ram = none ↔
      ∃ a ∈ program.flatMap HostStatement.namedBytes,
        2 ^ 32 ≤ a ∨ ¬ ∃ r ∈ ram, r.base ≤ a ∧ a < r.base + r.size) ∧
    ∀ s : State, launch client program ram = some s →
      Inv s ∧
      s = { State.reset with pending := programActions client program, mem := s.mem, ram := ram } ∧
      (∀ a ∈ program.flatMap HostStatement.namedBytes, IsBacked s a) ∧
      (∀ (before after : List HostStatement) (a : Nat) (bytes : List Byte) (i : Nat) (h : i < bytes.length),
        program = before ++ .mem a bytes :: after → a + i ∉ after.flatMap HostStatement.namedBytes →
        s.mem.read (a + i) = bytes[i]) ∧
      ∀ a, a ∉ program.flatMap HostStatement.namedBytes → s.mem.read a = State.reset.mem.read a

/-! ## Register reads and the users of a context -/

/-- A read of CMD, DIN, DOUT or an operand register returns that register, each at its offset of R28, and changes nothing
of the block (R28, R29, R31 to R35). -/
def Obligations.RegisterReads : Prop :=
  ∀ (s : State) (client : Client) (rest : List HostAction) (offset : BitVec 8),
    Awaits s (.readReg client 32 offset) rest →
    offset ∈ [0x00#8, 0x08#8, 0x0C#8, 0x10#8, 0x14#8, 0x18#8, 0x1C#8, 0x20#8, 0x24#8, 0x28#8, 0x2C#8, 0x30#8] →
    ∃ v : Word,
      step s = .next { s with pending := rest, issuer := client, readLog := s.readLog ++ [v] } ∧
      (offset = 0x00#8 → v = s.cmd) ∧ (offset = 0x08#8 → v = s.dinLo) ∧ (offset = 0x0C#8 → v = s.dinHi) ∧
      (offset = 0x10#8 → v = s.doutLo) ∧ (offset = 0x14#8 → v = s.doutHi) ∧
      (offset = 0x18#8 → v = s.inBase) ∧ (offset = 0x1C#8 → v = s.inLen) ∧ (offset = 0x20#8 → v = s.inOff) ∧
      (offset = 0x24#8 → v = s.outBase) ∧ (offset = 0x28#8 → v = s.outLen) ∧ (offset = 0x2C#8 → v = s.outOff) ∧
      (offset = 0x30#8 → v = s.count)

/-- The record of a context's users (the model's own, log entry 6): INIT starts it with its client, an accepted command
puts its client last and keeps the others, and a rejected one leaves it. An accepted client's next command is not
refused Shared for what it has itself recorded. -/
def Obligations.ContextUsersAreRecorded : Prop :=
  ∀ (i : Instr) (s t : State), exec i s = .next t →
    ((∃ v, i = .init v) → t.users = [s.issuer]) ∧
    ((∀ v, i ≠ .init v) → t.status.kind = .ok →
      t.users.getLast? = some s.issuer ∧ (∀ u, u ∈ t.users ↔ u ∈ s.users ∨ u = s.issuer) ∧ ¬ SharedClients t) ∧
    (t.status.kind ≠ .ok → t.users = s.users)
end

