-- ==== Sys2Proof/Laws/Bounds.lean ====
section
/-! SUPPORT. Integer facts the codec's arithmetic rests on: a floor quotient of a weighted distance lies between 0 and
that distance, and a small natural number survives the way into a 32-bit word and back. -/

namespace Sys2Proof.Machine

/-- A rounded fraction `r / M` of a distance `d ≥ 0`, with `r < M` and a rounding term below `M`, lies in [0, d]. -/
theorem floorQuotient_up {r d M h : Int} (hr0 : 0 ≤ r) (hrM : r ≤ M - 1) (hd : 0 ≤ d) (h0 : 0 ≤ h) (hM : h < M) :
    0 ≤ (r * d + h) / M ∧ (r * d + h) / M ≤ d := by
  have hM0 : 0 < M := by omega
  refine ⟨Int.ediv_nonneg (by positivity) hM0.le, ?_⟩
  have : (r * d + h) / M < d + 1 := by
    rw [Int.ediv_lt_iff_lt_mul hM0]; nlinarith
  omega

/-- The same for a distance `d ≤ 0`: the quotient lies in [d, 0]. -/
theorem floorQuotient_down {r d M h : Int} (hr0 : 0 ≤ r) (hrM : r ≤ M - 1) (hd : d ≤ 0) (h0 : 0 ≤ h) (hM : h < M) :
    d ≤ (r * d + h) / M ∧ (r * d + h) / M ≤ 0 := by
  have hM0 : 0 < M := by omega
  constructor
  · rw [Int.le_ediv_iff_mul_le hM0]; nlinarith
  · have : (r * d + h) / M < 1 := by
      rw [Int.ediv_lt_iff_lt_mul hM0]; nlinarith
    omega

/-- A number below 2^31 is its own signed 32-bit value. -/
theorem toInt_ofNat_of_lt {n : Nat} (h : n < 2 ^ 31) : (BitVec.ofNat 32 n).toInt = n := by
  rw [BitVec.toInt_eq_toNat_cond, BitVec.toNat_ofNat, Nat.mod_eq_of_lt (by omega), if_pos (by omega)]

/-- A nonnegative signed word plus a number does not wrap while the sum is below 2^31. -/
theorem toInt_add_ofNat {x : Word} {n : Nat} (h0 : 0 ≤ x.toInt) (h : x.toInt + n < 2 ^ 31) :
    (x + BitVec.ofNat 32 n).toInt = x.toInt + n := by
  rw [BitVec.toInt_add, toInt_ofNat_of_lt (by omega), Int.bmod_def]; omega

end Sys2Proof.Machine
end

