-- ==== Sys2Proof/Laws/State.lean ====
section
/-! SUPPORT. What each field of State is after each update of Machine/Ops.lean, so that no later proof unfolds a record
update. -/

namespace Sys2Proof.Machine

/-! ### setCtx -/

@[simp] theorem State.setCtx_ctx (s : State) (c : Context) : (s.setCtx c).ctx = c := rfl
@[simp] theorem State.setCtx_cmd (s : State) (c : Context) : (s.setCtx c).cmd = s.cmd := rfl
@[simp] theorem State.setCtx_status (s : State) (c : Context) : (s.setCtx c).status = s.status := rfl
@[simp] theorem State.setCtx_dinLo (s : State) (c : Context) : (s.setCtx c).dinLo = s.dinLo := rfl
@[simp] theorem State.setCtx_dinHi (s : State) (c : Context) : (s.setCtx c).dinHi = s.dinHi := rfl
@[simp] theorem State.setCtx_doutLo (s : State) (c : Context) : (s.setCtx c).doutLo = s.doutLo := rfl
@[simp] theorem State.setCtx_doutHi (s : State) (c : Context) : (s.setCtx c).doutHi = s.doutHi := rfl
@[simp] theorem State.setCtx_inBase (s : State) (c : Context) : (s.setCtx c).inBase = s.inBase := rfl
@[simp] theorem State.setCtx_inLen (s : State) (c : Context) : (s.setCtx c).inLen = s.inLen := rfl
@[simp] theorem State.setCtx_inOff (s : State) (c : Context) : (s.setCtx c).inOff = s.inOff := rfl
@[simp] theorem State.setCtx_outBase (s : State) (c : Context) : (s.setCtx c).outBase = s.outBase := rfl
@[simp] theorem State.setCtx_outLen (s : State) (c : Context) : (s.setCtx c).outLen = s.outLen := rfl
@[simp] theorem State.setCtx_outOff (s : State) (c : Context) : (s.setCtx c).outOff = s.outOff := rfl
@[simp] theorem State.setCtx_count (s : State) (c : Context) : (s.setCtx c).count = s.count := rfl
@[simp] theorem State.setCtx_mem (s : State) (c : Context) : (s.setCtx c).mem = s.mem := rfl
@[simp] theorem State.setCtx_ram (s : State) (c : Context) : (s.setCtx c).ram = s.ram := rfl
@[simp] theorem State.setCtx_pending (s : State) (c : Context) : (s.setCtx c).pending = s.pending := rfl
@[simp] theorem State.setCtx_readLog (s : State) (c : Context) : (s.setCtx c).readLog = s.readLog := rfl
@[simp] theorem State.setCtx_refusedMark (s : State) (c : Context) : (s.setCtx c).refusedMark = s.refusedMark := rfl
@[simp] theorem State.setCtx_issuer (s : State) (c : Context) : (s.setCtx c).issuer = s.issuer := rfl
@[simp] theorem State.setCtx_users (s : State) (c : Context) : (s.setCtx c).users = s.users := rfl

/-! ### setStatus -/

@[simp] theorem State.setStatus_ctx (s : State) (t : Status) : (s.setStatus t).ctx = s.ctx := rfl
@[simp] theorem State.setStatus_cmd (s : State) (t : Status) : (s.setStatus t).cmd = s.cmd := rfl
@[simp] theorem State.setStatus_status (s : State) (t : Status) : (s.setStatus t).status = t := rfl
@[simp] theorem State.setStatus_dinLo (s : State) (t : Status) : (s.setStatus t).dinLo = s.dinLo := rfl
@[simp] theorem State.setStatus_dinHi (s : State) (t : Status) : (s.setStatus t).dinHi = s.dinHi := rfl
@[simp] theorem State.setStatus_doutLo (s : State) (t : Status) : (s.setStatus t).doutLo = s.doutLo := rfl
@[simp] theorem State.setStatus_doutHi (s : State) (t : Status) : (s.setStatus t).doutHi = s.doutHi := rfl
@[simp] theorem State.setStatus_inBase (s : State) (t : Status) : (s.setStatus t).inBase = s.inBase := rfl
@[simp] theorem State.setStatus_inLen (s : State) (t : Status) : (s.setStatus t).inLen = s.inLen := rfl
@[simp] theorem State.setStatus_inOff (s : State) (t : Status) : (s.setStatus t).inOff = s.inOff := rfl
@[simp] theorem State.setStatus_outBase (s : State) (t : Status) : (s.setStatus t).outBase = s.outBase := rfl
@[simp] theorem State.setStatus_outLen (s : State) (t : Status) : (s.setStatus t).outLen = s.outLen := rfl
@[simp] theorem State.setStatus_outOff (s : State) (t : Status) : (s.setStatus t).outOff = s.outOff := rfl
@[simp] theorem State.setStatus_count (s : State) (t : Status) : (s.setStatus t).count = s.count := rfl
@[simp] theorem State.setStatus_mem (s : State) (t : Status) : (s.setStatus t).mem = s.mem := rfl
@[simp] theorem State.setStatus_ram (s : State) (t : Status) : (s.setStatus t).ram = s.ram := rfl
@[simp] theorem State.setStatus_pending (s : State) (t : Status) : (s.setStatus t).pending = s.pending := rfl
@[simp] theorem State.setStatus_readLog (s : State) (t : Status) : (s.setStatus t).readLog = s.readLog := rfl
@[simp] theorem State.setStatus_refusedMark (s : State) (t : Status) :
    (s.setStatus t).refusedMark = s.refusedMark := rfl
@[simp] theorem State.setStatus_issuer (s : State) (t : Status) : (s.setStatus t).issuer = s.issuer := rfl
@[simp] theorem State.setStatus_users (s : State) (t : Status) : (s.setStatus t).users = s.users := rfl

/-! ### setCmd -/

@[simp] theorem State.setCmd_ctx (s : State) (w : Word) : (s.setCmd w).ctx = s.ctx := rfl
@[simp] theorem State.setCmd_cmd (s : State) (w : Word) : (s.setCmd w).cmd = w := rfl
@[simp] theorem State.setCmd_status (s : State) (w : Word) : (s.setCmd w).status = s.status := rfl
@[simp] theorem State.setCmd_dinLo (s : State) (w : Word) : (s.setCmd w).dinLo = s.dinLo := rfl
@[simp] theorem State.setCmd_dinHi (s : State) (w : Word) : (s.setCmd w).dinHi = s.dinHi := rfl
@[simp] theorem State.setCmd_doutLo (s : State) (w : Word) : (s.setCmd w).doutLo = s.doutLo := rfl
@[simp] theorem State.setCmd_doutHi (s : State) (w : Word) : (s.setCmd w).doutHi = s.doutHi := rfl
@[simp] theorem State.setCmd_inBase (s : State) (w : Word) : (s.setCmd w).inBase = s.inBase := rfl
@[simp] theorem State.setCmd_inLen (s : State) (w : Word) : (s.setCmd w).inLen = s.inLen := rfl
@[simp] theorem State.setCmd_inOff (s : State) (w : Word) : (s.setCmd w).inOff = s.inOff := rfl
@[simp] theorem State.setCmd_outBase (s : State) (w : Word) : (s.setCmd w).outBase = s.outBase := rfl
@[simp] theorem State.setCmd_outLen (s : State) (w : Word) : (s.setCmd w).outLen = s.outLen := rfl
@[simp] theorem State.setCmd_outOff (s : State) (w : Word) : (s.setCmd w).outOff = s.outOff := rfl
@[simp] theorem State.setCmd_count (s : State) (w : Word) : (s.setCmd w).count = s.count := rfl
@[simp] theorem State.setCmd_mem (s : State) (w : Word) : (s.setCmd w).mem = s.mem := rfl
@[simp] theorem State.setCmd_ram (s : State) (w : Word) : (s.setCmd w).ram = s.ram := rfl
@[simp] theorem State.setCmd_pending (s : State) (w : Word) : (s.setCmd w).pending = s.pending := rfl
@[simp] theorem State.setCmd_readLog (s : State) (w : Word) : (s.setCmd w).readLog = s.readLog := rfl
@[simp] theorem State.setCmd_refusedMark (s : State) (w : Word) : (s.setCmd w).refusedMark = s.refusedMark := rfl
@[simp] theorem State.setCmd_issuer (s : State) (w : Word) : (s.setCmd w).issuer = s.issuer := rfl
@[simp] theorem State.setCmd_users (s : State) (w : Word) : (s.setCmd w).users = s.users := rfl

/-! ### setDout -/

@[simp] theorem State.setDout_ctx (s : State) (d : DWord) : (s.setDout d).ctx = s.ctx := rfl
@[simp] theorem State.setDout_cmd (s : State) (d : DWord) : (s.setDout d).cmd = s.cmd := rfl
@[simp] theorem State.setDout_status (s : State) (d : DWord) : (s.setDout d).status = s.status := rfl
@[simp] theorem State.setDout_dinLo (s : State) (d : DWord) : (s.setDout d).dinLo = s.dinLo := rfl
@[simp] theorem State.setDout_dinHi (s : State) (d : DWord) : (s.setDout d).dinHi = s.dinHi := rfl
@[simp] theorem State.setDout_doutLo (s : State) (d : DWord) : (s.setDout d).doutLo = d.extractLsb' 0 32 := rfl
@[simp] theorem State.setDout_doutHi (s : State) (d : DWord) : (s.setDout d).doutHi = d.extractLsb' 32 32 := rfl
@[simp] theorem State.setDout_inBase (s : State) (d : DWord) : (s.setDout d).inBase = s.inBase := rfl
@[simp] theorem State.setDout_inLen (s : State) (d : DWord) : (s.setDout d).inLen = s.inLen := rfl
@[simp] theorem State.setDout_inOff (s : State) (d : DWord) : (s.setDout d).inOff = s.inOff := rfl
@[simp] theorem State.setDout_outBase (s : State) (d : DWord) : (s.setDout d).outBase = s.outBase := rfl
@[simp] theorem State.setDout_outLen (s : State) (d : DWord) : (s.setDout d).outLen = s.outLen := rfl
@[simp] theorem State.setDout_outOff (s : State) (d : DWord) : (s.setDout d).outOff = s.outOff := rfl
@[simp] theorem State.setDout_count (s : State) (d : DWord) : (s.setDout d).count = s.count := rfl
@[simp] theorem State.setDout_mem (s : State) (d : DWord) : (s.setDout d).mem = s.mem := rfl
@[simp] theorem State.setDout_ram (s : State) (d : DWord) : (s.setDout d).ram = s.ram := rfl
@[simp] theorem State.setDout_pending (s : State) (d : DWord) : (s.setDout d).pending = s.pending := rfl
@[simp] theorem State.setDout_readLog (s : State) (d : DWord) : (s.setDout d).readLog = s.readLog := rfl
@[simp] theorem State.setDout_refusedMark (s : State) (d : DWord) : (s.setDout d).refusedMark = s.refusedMark := rfl
@[simp] theorem State.setDout_issuer (s : State) (d : DWord) : (s.setDout d).issuer = s.issuer := rfl
@[simp] theorem State.setDout_users (s : State) (d : DWord) : (s.setDout d).users = s.users := rfl

/-! ### storeByte -/

@[simp] theorem State.storeByte_ctx (s : State) (a : Nat) (v : Byte) : (s.storeByte a v).ctx = s.ctx := rfl
@[simp] theorem State.storeByte_cmd (s : State) (a : Nat) (v : Byte) : (s.storeByte a v).cmd = s.cmd := rfl
@[simp] theorem State.storeByte_status (s : State) (a : Nat) (v : Byte) : (s.storeByte a v).status = s.status := rfl
@[simp] theorem State.storeByte_dinLo (s : State) (a : Nat) (v : Byte) : (s.storeByte a v).dinLo = s.dinLo := rfl
@[simp] theorem State.storeByte_dinHi (s : State) (a : Nat) (v : Byte) : (s.storeByte a v).dinHi = s.dinHi := rfl
@[simp] theorem State.storeByte_doutLo (s : State) (a : Nat) (v : Byte) : (s.storeByte a v).doutLo = s.doutLo := rfl
@[simp] theorem State.storeByte_doutHi (s : State) (a : Nat) (v : Byte) : (s.storeByte a v).doutHi = s.doutHi := rfl
@[simp] theorem State.storeByte_inBase (s : State) (a : Nat) (v : Byte) : (s.storeByte a v).inBase = s.inBase := rfl
@[simp] theorem State.storeByte_inLen (s : State) (a : Nat) (v : Byte) : (s.storeByte a v).inLen = s.inLen := rfl
@[simp] theorem State.storeByte_inOff (s : State) (a : Nat) (v : Byte) : (s.storeByte a v).inOff = s.inOff := rfl
@[simp] theorem State.storeByte_outBase (s : State) (a : Nat) (v : Byte) : (s.storeByte a v).outBase = s.outBase := rfl
@[simp] theorem State.storeByte_outLen (s : State) (a : Nat) (v : Byte) : (s.storeByte a v).outLen = s.outLen := rfl
@[simp] theorem State.storeByte_outOff (s : State) (a : Nat) (v : Byte) : (s.storeByte a v).outOff = s.outOff := rfl
@[simp] theorem State.storeByte_count (s : State) (a : Nat) (v : Byte) : (s.storeByte a v).count = s.count := rfl
@[simp] theorem State.storeByte_mem (s : State) (a : Nat) (v : Byte) : (s.storeByte a v).mem = s.mem.write a v := rfl
@[simp] theorem State.storeByte_ram (s : State) (a : Nat) (v : Byte) : (s.storeByte a v).ram = s.ram := rfl
@[simp] theorem State.storeByte_pending (s : State) (a : Nat) (v : Byte) : (s.storeByte a v).pending = s.pending := rfl
@[simp] theorem State.storeByte_readLog (s : State) (a : Nat) (v : Byte) : (s.storeByte a v).readLog = s.readLog := rfl
@[simp] theorem State.storeByte_refusedMark (s : State) (a : Nat) (v : Byte) :
    (s.storeByte a v).refusedMark = s.refusedMark := rfl
@[simp] theorem State.storeByte_issuer (s : State) (a : Nat) (v : Byte) : (s.storeByte a v).issuer = s.issuer := rfl
@[simp] theorem State.storeByte_users (s : State) (a : Nat) (v : Byte) : (s.storeByte a v).users = s.users := rfl

/-! ### setPending -/

@[simp] theorem State.setPending_ctx (s : State) (p : List HostAction) : (s.setPending p).ctx = s.ctx := rfl
@[simp] theorem State.setPending_cmd (s : State) (p : List HostAction) : (s.setPending p).cmd = s.cmd := rfl
@[simp] theorem State.setPending_status (s : State) (p : List HostAction) : (s.setPending p).status = s.status := rfl
@[simp] theorem State.setPending_dinLo (s : State) (p : List HostAction) : (s.setPending p).dinLo = s.dinLo := rfl
@[simp] theorem State.setPending_dinHi (s : State) (p : List HostAction) : (s.setPending p).dinHi = s.dinHi := rfl
@[simp] theorem State.setPending_doutLo (s : State) (p : List HostAction) : (s.setPending p).doutLo = s.doutLo := rfl
@[simp] theorem State.setPending_doutHi (s : State) (p : List HostAction) : (s.setPending p).doutHi = s.doutHi := rfl
@[simp] theorem State.setPending_inBase (s : State) (p : List HostAction) : (s.setPending p).inBase = s.inBase := rfl
@[simp] theorem State.setPending_inLen (s : State) (p : List HostAction) : (s.setPending p).inLen = s.inLen := rfl
@[simp] theorem State.setPending_inOff (s : State) (p : List HostAction) : (s.setPending p).inOff = s.inOff := rfl
@[simp] theorem State.setPending_outBase (s : State) (p : List HostAction) :
    (s.setPending p).outBase = s.outBase := rfl
@[simp] theorem State.setPending_outLen (s : State) (p : List HostAction) : (s.setPending p).outLen = s.outLen := rfl
@[simp] theorem State.setPending_outOff (s : State) (p : List HostAction) : (s.setPending p).outOff = s.outOff := rfl
@[simp] theorem State.setPending_count (s : State) (p : List HostAction) : (s.setPending p).count = s.count := rfl
@[simp] theorem State.setPending_mem (s : State) (p : List HostAction) : (s.setPending p).mem = s.mem := rfl
@[simp] theorem State.setPending_ram (s : State) (p : List HostAction) : (s.setPending p).ram = s.ram := rfl
@[simp] theorem State.setPending_pending (s : State) (p : List HostAction) : (s.setPending p).pending = p := rfl
@[simp] theorem State.setPending_readLog (s : State) (p : List HostAction) :
    (s.setPending p).readLog = s.readLog := rfl
@[simp] theorem State.setPending_refusedMark (s : State) (p : List HostAction) :
    (s.setPending p).refusedMark = s.refusedMark := rfl
@[simp] theorem State.setPending_issuer (s : State) (p : List HostAction) : (s.setPending p).issuer = s.issuer := rfl
@[simp] theorem State.setPending_users (s : State) (p : List HostAction) : (s.setPending p).users = s.users := rfl

/-! ### logRead -/

@[simp] theorem State.logRead_ctx (s : State) (w : Word) : (s.logRead w).ctx = s.ctx := rfl
@[simp] theorem State.logRead_cmd (s : State) (w : Word) : (s.logRead w).cmd = s.cmd := rfl
@[simp] theorem State.logRead_status (s : State) (w : Word) : (s.logRead w).status = s.status := rfl
@[simp] theorem State.logRead_dinLo (s : State) (w : Word) : (s.logRead w).dinLo = s.dinLo := rfl
@[simp] theorem State.logRead_dinHi (s : State) (w : Word) : (s.logRead w).dinHi = s.dinHi := rfl
@[simp] theorem State.logRead_doutLo (s : State) (w : Word) : (s.logRead w).doutLo = s.doutLo := rfl
@[simp] theorem State.logRead_doutHi (s : State) (w : Word) : (s.logRead w).doutHi = s.doutHi := rfl
@[simp] theorem State.logRead_inBase (s : State) (w : Word) : (s.logRead w).inBase = s.inBase := rfl
@[simp] theorem State.logRead_inLen (s : State) (w : Word) : (s.logRead w).inLen = s.inLen := rfl
@[simp] theorem State.logRead_inOff (s : State) (w : Word) : (s.logRead w).inOff = s.inOff := rfl
@[simp] theorem State.logRead_outBase (s : State) (w : Word) : (s.logRead w).outBase = s.outBase := rfl
@[simp] theorem State.logRead_outLen (s : State) (w : Word) : (s.logRead w).outLen = s.outLen := rfl
@[simp] theorem State.logRead_outOff (s : State) (w : Word) : (s.logRead w).outOff = s.outOff := rfl
@[simp] theorem State.logRead_count (s : State) (w : Word) : (s.logRead w).count = s.count := rfl
@[simp] theorem State.logRead_mem (s : State) (w : Word) : (s.logRead w).mem = s.mem := rfl
@[simp] theorem State.logRead_ram (s : State) (w : Word) : (s.logRead w).ram = s.ram := rfl
@[simp] theorem State.logRead_pending (s : State) (w : Word) : (s.logRead w).pending = s.pending := rfl
@[simp] theorem State.logRead_readLog (s : State) (w : Word) : (s.logRead w).readLog = s.readLog ++ [w] := rfl
@[simp] theorem State.logRead_refusedMark (s : State) (w : Word) : (s.logRead w).refusedMark = s.refusedMark := rfl
@[simp] theorem State.logRead_issuer (s : State) (w : Word) : (s.logRead w).issuer = s.issuer := rfl
@[simp] theorem State.logRead_users (s : State) (w : Word) : (s.logRead w).users = s.users := rfl

/-! ### setIssuer -/

@[simp] theorem State.setIssuer_ctx (s : State) (c : Client) : (s.setIssuer c).ctx = s.ctx := rfl
@[simp] theorem State.setIssuer_cmd (s : State) (c : Client) : (s.setIssuer c).cmd = s.cmd := rfl
@[simp] theorem State.setIssuer_status (s : State) (c : Client) : (s.setIssuer c).status = s.status := rfl
@[simp] theorem State.setIssuer_dinLo (s : State) (c : Client) : (s.setIssuer c).dinLo = s.dinLo := rfl
@[simp] theorem State.setIssuer_dinHi (s : State) (c : Client) : (s.setIssuer c).dinHi = s.dinHi := rfl
@[simp] theorem State.setIssuer_doutLo (s : State) (c : Client) : (s.setIssuer c).doutLo = s.doutLo := rfl
@[simp] theorem State.setIssuer_doutHi (s : State) (c : Client) : (s.setIssuer c).doutHi = s.doutHi := rfl
@[simp] theorem State.setIssuer_inBase (s : State) (c : Client) : (s.setIssuer c).inBase = s.inBase := rfl
@[simp] theorem State.setIssuer_inLen (s : State) (c : Client) : (s.setIssuer c).inLen = s.inLen := rfl
@[simp] theorem State.setIssuer_inOff (s : State) (c : Client) : (s.setIssuer c).inOff = s.inOff := rfl
@[simp] theorem State.setIssuer_outBase (s : State) (c : Client) : (s.setIssuer c).outBase = s.outBase := rfl
@[simp] theorem State.setIssuer_outLen (s : State) (c : Client) : (s.setIssuer c).outLen = s.outLen := rfl
@[simp] theorem State.setIssuer_outOff (s : State) (c : Client) : (s.setIssuer c).outOff = s.outOff := rfl
@[simp] theorem State.setIssuer_count (s : State) (c : Client) : (s.setIssuer c).count = s.count := rfl
@[simp] theorem State.setIssuer_mem (s : State) (c : Client) : (s.setIssuer c).mem = s.mem := rfl
@[simp] theorem State.setIssuer_ram (s : State) (c : Client) : (s.setIssuer c).ram = s.ram := rfl
@[simp] theorem State.setIssuer_pending (s : State) (c : Client) : (s.setIssuer c).pending = s.pending := rfl
@[simp] theorem State.setIssuer_readLog (s : State) (c : Client) : (s.setIssuer c).readLog = s.readLog := rfl
@[simp] theorem State.setIssuer_refusedMark (s : State) (c : Client) :
    (s.setIssuer c).refusedMark = s.refusedMark := rfl
@[simp] theorem State.setIssuer_issuer (s : State) (c : Client) : (s.setIssuer c).issuer = c := rfl
@[simp] theorem State.setIssuer_users (s : State) (c : Client) : (s.setIssuer c).users = s.users := rfl

/-! ### setUsers -/

@[simp] theorem State.setUsers_ctx (s : State) (u : List Client) : (s.setUsers u).ctx = s.ctx := rfl
@[simp] theorem State.setUsers_cmd (s : State) (u : List Client) : (s.setUsers u).cmd = s.cmd := rfl
@[simp] theorem State.setUsers_status (s : State) (u : List Client) : (s.setUsers u).status = s.status := rfl
@[simp] theorem State.setUsers_dinLo (s : State) (u : List Client) : (s.setUsers u).dinLo = s.dinLo := rfl
@[simp] theorem State.setUsers_dinHi (s : State) (u : List Client) : (s.setUsers u).dinHi = s.dinHi := rfl
@[simp] theorem State.setUsers_doutLo (s : State) (u : List Client) : (s.setUsers u).doutLo = s.doutLo := rfl
@[simp] theorem State.setUsers_doutHi (s : State) (u : List Client) : (s.setUsers u).doutHi = s.doutHi := rfl
@[simp] theorem State.setUsers_inBase (s : State) (u : List Client) : (s.setUsers u).inBase = s.inBase := rfl
@[simp] theorem State.setUsers_inLen (s : State) (u : List Client) : (s.setUsers u).inLen = s.inLen := rfl
@[simp] theorem State.setUsers_inOff (s : State) (u : List Client) : (s.setUsers u).inOff = s.inOff := rfl
@[simp] theorem State.setUsers_outBase (s : State) (u : List Client) : (s.setUsers u).outBase = s.outBase := rfl
@[simp] theorem State.setUsers_outLen (s : State) (u : List Client) : (s.setUsers u).outLen = s.outLen := rfl
@[simp] theorem State.setUsers_outOff (s : State) (u : List Client) : (s.setUsers u).outOff = s.outOff := rfl
@[simp] theorem State.setUsers_count (s : State) (u : List Client) : (s.setUsers u).count = s.count := rfl
@[simp] theorem State.setUsers_mem (s : State) (u : List Client) : (s.setUsers u).mem = s.mem := rfl
@[simp] theorem State.setUsers_ram (s : State) (u : List Client) : (s.setUsers u).ram = s.ram := rfl
@[simp] theorem State.setUsers_pending (s : State) (u : List Client) : (s.setUsers u).pending = s.pending := rfl
@[simp] theorem State.setUsers_readLog (s : State) (u : List Client) : (s.setUsers u).readLog = s.readLog := rfl
@[simp] theorem State.setUsers_refusedMark (s : State) (u : List Client) :
    (s.setUsers u).refusedMark = s.refusedMark := rfl
@[simp] theorem State.setUsers_issuer (s : State) (u : List Client) : (s.setUsers u).issuer = s.issuer := rfl
@[simp] theorem State.setUsers_users (s : State) (u : List Client) : (s.setUsers u).users = u := rfl

/-! ### raise -/

@[simp] theorem State.raise_ctx (s : State) (k : Kind) (c : Cause) : (s.raise k c).ctx = s.ctx := rfl
@[simp] theorem State.raise_cmd (s : State) (k : Kind) (c : Cause) : (s.raise k c).cmd = s.cmd := rfl
@[simp] theorem State.raise_status (s : State) (k : Kind) (c : Cause) :
    (s.raise k c).status = { kind := k, cause := c, busy := false } := rfl
@[simp] theorem State.raise_dinLo (s : State) (k : Kind) (c : Cause) : (s.raise k c).dinLo = s.dinLo := rfl
@[simp] theorem State.raise_dinHi (s : State) (k : Kind) (c : Cause) : (s.raise k c).dinHi = s.dinHi := rfl
@[simp] theorem State.raise_doutLo (s : State) (k : Kind) (c : Cause) : (s.raise k c).doutLo = s.doutLo := rfl
@[simp] theorem State.raise_doutHi (s : State) (k : Kind) (c : Cause) : (s.raise k c).doutHi = s.doutHi := rfl
@[simp] theorem State.raise_inBase (s : State) (k : Kind) (c : Cause) : (s.raise k c).inBase = s.inBase := rfl
@[simp] theorem State.raise_inLen (s : State) (k : Kind) (c : Cause) : (s.raise k c).inLen = s.inLen := rfl
@[simp] theorem State.raise_inOff (s : State) (k : Kind) (c : Cause) : (s.raise k c).inOff = s.inOff := rfl
@[simp] theorem State.raise_outBase (s : State) (k : Kind) (c : Cause) : (s.raise k c).outBase = s.outBase := rfl
@[simp] theorem State.raise_outLen (s : State) (k : Kind) (c : Cause) : (s.raise k c).outLen = s.outLen := rfl
@[simp] theorem State.raise_outOff (s : State) (k : Kind) (c : Cause) : (s.raise k c).outOff = s.outOff := rfl
@[simp] theorem State.raise_count (s : State) (k : Kind) (c : Cause) : (s.raise k c).count = s.count := rfl
@[simp] theorem State.raise_mem (s : State) (k : Kind) (c : Cause) : (s.raise k c).mem = s.mem := rfl
@[simp] theorem State.raise_ram (s : State) (k : Kind) (c : Cause) : (s.raise k c).ram = s.ram := rfl
@[simp] theorem State.raise_pending (s : State) (k : Kind) (c : Cause) : (s.raise k c).pending = s.pending := rfl
@[simp] theorem State.raise_readLog (s : State) (k : Kind) (c : Cause) : (s.raise k c).readLog = s.readLog := rfl
@[simp] theorem State.raise_refusedMark (s : State) (k : Kind) (c : Cause) :
    (s.raise k c).refusedMark = s.refusedMark := rfl
@[simp] theorem State.raise_issuer (s : State) (k : Kind) (c : Cause) : (s.raise k c).issuer = s.issuer := rfl
@[simp] theorem State.raise_users (s : State) (k : Kind) (c : Cause) : (s.raise k c).users = s.users := rfl

/-! ### finish -/

@[simp] theorem State.finish_ctx (s : State) : s.finish.ctx = s.ctx := rfl
@[simp] theorem State.finish_cmd (s : State) : s.finish.cmd = s.cmd := rfl
@[simp] theorem State.finish_status (s : State) :
    s.finish.status = { kind := .ok, cause := .none, busy := false } := rfl
@[simp] theorem State.finish_dinLo (s : State) : s.finish.dinLo = s.dinLo := rfl
@[simp] theorem State.finish_dinHi (s : State) : s.finish.dinHi = s.dinHi := rfl
@[simp] theorem State.finish_doutLo (s : State) : s.finish.doutLo = s.doutLo := rfl
@[simp] theorem State.finish_doutHi (s : State) : s.finish.doutHi = s.doutHi := rfl
@[simp] theorem State.finish_inBase (s : State) : s.finish.inBase = s.inBase := rfl
@[simp] theorem State.finish_inLen (s : State) : s.finish.inLen = s.inLen := rfl
@[simp] theorem State.finish_inOff (s : State) : s.finish.inOff = s.inOff := rfl
@[simp] theorem State.finish_outBase (s : State) : s.finish.outBase = s.outBase := rfl
@[simp] theorem State.finish_outLen (s : State) : s.finish.outLen = s.outLen := rfl
@[simp] theorem State.finish_outOff (s : State) : s.finish.outOff = s.outOff := rfl
@[simp] theorem State.finish_count (s : State) : s.finish.count = s.count := rfl
@[simp] theorem State.finish_mem (s : State) : s.finish.mem = s.mem := rfl
@[simp] theorem State.finish_ram (s : State) : s.finish.ram = s.ram := rfl
@[simp] theorem State.finish_pending (s : State) : s.finish.pending = s.pending := rfl
@[simp] theorem State.finish_readLog (s : State) : s.finish.readLog = s.readLog := rfl
@[simp] theorem State.finish_refusedMark (s : State) : s.finish.refusedMark = s.refusedMark := rfl
@[simp] theorem State.finish_issuer (s : State) : s.finish.issuer = s.issuer := rfl
@[simp] theorem State.finish_users (s : State) : s.finish.users = s.users := rfl

/-! ### accept -/

@[simp] theorem State.accept_ctx (s : State) : s.accept.ctx = s.ctx := rfl
@[simp] theorem State.accept_cmd (s : State) : s.accept.cmd = s.cmd := rfl
@[simp] theorem State.accept_status (s : State) :
    s.accept.status = { kind := .ok, cause := .none, busy := false } := rfl
@[simp] theorem State.accept_dinLo (s : State) : s.accept.dinLo = s.dinLo := rfl
@[simp] theorem State.accept_dinHi (s : State) : s.accept.dinHi = s.dinHi := rfl
@[simp] theorem State.accept_doutLo (s : State) : s.accept.doutLo = s.doutLo := rfl
@[simp] theorem State.accept_doutHi (s : State) : s.accept.doutHi = s.doutHi := rfl
@[simp] theorem State.accept_inBase (s : State) : s.accept.inBase = s.inBase := rfl
@[simp] theorem State.accept_inLen (s : State) : s.accept.inLen = s.inLen := rfl
@[simp] theorem State.accept_inOff (s : State) : s.accept.inOff = s.inOff := rfl
@[simp] theorem State.accept_outBase (s : State) : s.accept.outBase = s.outBase := rfl
@[simp] theorem State.accept_outLen (s : State) : s.accept.outLen = s.outLen := rfl
@[simp] theorem State.accept_outOff (s : State) : s.accept.outOff = s.outOff := rfl
@[simp] theorem State.accept_count (s : State) : s.accept.count = s.count := rfl
@[simp] theorem State.accept_mem (s : State) : s.accept.mem = s.mem := rfl
@[simp] theorem State.accept_ram (s : State) : s.accept.ram = s.ram := rfl
@[simp] theorem State.accept_pending (s : State) : s.accept.pending = s.pending := rfl
@[simp] theorem State.accept_readLog (s : State) : s.accept.readLog = s.readLog := rfl
@[simp] theorem State.accept_refusedMark (s : State) : s.accept.refusedMark = s.refusedMark := rfl
@[simp] theorem State.accept_issuer (s : State) : s.accept.issuer = s.issuer := rfl
@[simp] theorem State.accept_users (s : State) : s.accept.users = recordedUsers s.users s.issuer := rfl

/-! ### resetBlock -/

@[simp] theorem State.resetBlock_ctx (s : State) : s.resetBlock.ctx = State.reset.ctx := rfl
@[simp] theorem State.resetBlock_cmd (s : State) : s.resetBlock.cmd = State.reset.cmd := rfl
@[simp] theorem State.resetBlock_status (s : State) : s.resetBlock.status = State.reset.status := rfl
@[simp] theorem State.resetBlock_dinLo (s : State) : s.resetBlock.dinLo = State.reset.dinLo := rfl
@[simp] theorem State.resetBlock_dinHi (s : State) : s.resetBlock.dinHi = State.reset.dinHi := rfl
@[simp] theorem State.resetBlock_doutLo (s : State) : s.resetBlock.doutLo = State.reset.doutLo := rfl
@[simp] theorem State.resetBlock_doutHi (s : State) : s.resetBlock.doutHi = State.reset.doutHi := rfl
@[simp] theorem State.resetBlock_inBase (s : State) : s.resetBlock.inBase = State.reset.inBase := rfl
@[simp] theorem State.resetBlock_inLen (s : State) : s.resetBlock.inLen = State.reset.inLen := rfl
@[simp] theorem State.resetBlock_inOff (s : State) : s.resetBlock.inOff = State.reset.inOff := rfl
@[simp] theorem State.resetBlock_outBase (s : State) : s.resetBlock.outBase = State.reset.outBase := rfl
@[simp] theorem State.resetBlock_outLen (s : State) : s.resetBlock.outLen = State.reset.outLen := rfl
@[simp] theorem State.resetBlock_outOff (s : State) : s.resetBlock.outOff = State.reset.outOff := rfl
@[simp] theorem State.resetBlock_count (s : State) : s.resetBlock.count = State.reset.count := rfl
@[simp] theorem State.resetBlock_mem (s : State) : s.resetBlock.mem = s.mem := rfl
@[simp] theorem State.resetBlock_ram (s : State) : s.resetBlock.ram = s.ram := rfl
@[simp] theorem State.resetBlock_pending (s : State) : s.resetBlock.pending = s.pending := rfl
@[simp] theorem State.resetBlock_readLog (s : State) : s.resetBlock.readLog = s.readLog := rfl
@[simp] theorem State.resetBlock_refusedMark (s : State) : s.resetBlock.refusedMark = s.refusedMark := rfl
@[simp] theorem State.resetBlock_issuer (s : State) : s.resetBlock.issuer = s.issuer := rfl
@[simp] theorem State.resetBlock_users (s : State) : s.resetBlock.users = State.reset.users := rfl

end Sys2Proof.Machine
end

