-- ==== Sys2Proof/Laws/Clients.lean ====
section
/-! SUPPORT. The clients that use a context: when a command is Shared (R26, R141; log entry 6), and what recording a
client does. -/

namespace Sys2Proof.Machine

theorem mixesStreams_iff (users : List Client) (c : Client) :
    mixesStreams users c = true ↔ (∃ u ∈ users, u.host ≠ c.host) ∧ ∃ u ∈ users, u.stream ≠ c.stream := by
  simp [mixesStreams]

/-- The hosts interleave exactly if some use by another host comes after a use by the client's host. -/
theorem interleavesHosts_iff (users : List Client) (c : Client) :
    interleavesHosts users c = true ↔
      ∃ before u after, users = before ++ u :: after ∧ u.host ≠ c.host ∧ ∃ v ∈ before, v.host = c.host := by
  induction users with
  | nil => simp [interleavesHosts]
  | cons w ws ih =>
    by_cases hw : w.host = c.host
    · have hdrop : interleavesHosts (w :: ws) c = (w :: ws).any (fun u => decide (u.host ≠ c.host)) := by
        simp [interleavesHosts, hw]
      rw [hdrop, List.any_eq_true]
      constructor
      · rintro ⟨u, hu, hne⟩
        have hne : u.host ≠ c.host := by simpa using hne
        rcases List.mem_cons.mp hu with rfl | hu
        · exact absurd hw hne
        · obtain ⟨before, after, rfl⟩ := List.append_of_mem hu
          exact ⟨w :: before, u, after, rfl, hne, w, List.mem_cons_self, hw⟩
      · rintro ⟨before, u, after, h, hne, -⟩
        exact ⟨u, by rw [h]; simp, by simpa using hne⟩
    · have hdrop : interleavesHosts (w :: ws) c = interleavesHosts ws c := by
        simp [interleavesHosts, hw]
      rw [hdrop, ih]
      constructor
      · rintro ⟨before, u, after, rfl, hne, v, hv, hvh⟩
        exact ⟨w :: before, u, after, rfl, hne, v, List.mem_cons_of_mem _ hv, hvh⟩
      · rintro ⟨before, u, after, h, hne, v, hv, hvh⟩
        cases before with
        | nil => cases hv
        | cons x before =>
          obtain ⟨rfl, rfl⟩ := List.cons.inj h
          rcases List.mem_cons.mp hv with rfl | hv
          · exact absurd hvh hw
          · exact ⟨before, u, after, rfl, hne, v, hv, hvh⟩

theorem State.sharedUse_iff (s : State) : s.sharedUse = true ↔ SharedClients s := by
  rw [State.sharedUse, Bool.or_eq_true, mixesStreams_iff, interleavesHosts_iff]

/-- A recorded client is the last user, and the other users are those of before. -/
theorem mem_recordedUsers (users : List Client) (c u : Client) : u ∈ recordedUsers users c ↔ u ∈ users ∨ u = c := by
  unfold recordedUsers
  split
  next h =>
    exact ⟨.inl, fun hu => hu.elim id fun he => he ▸ List.mem_of_getLast? h⟩
  · simp

theorem recordedUsers_getLast? (users : List Client) (c : Client) : (recordedUsers users c).getLast? = some c := by
  unfold recordedUsers
  split
  · assumption
  · simp

/-- Recording a client that does not share the context never makes its own next command shared. -/
theorem interleavesHosts_recordedUsers {users : List Client} {c : Client} (h : interleavesHosts users c = false) :
    interleavesHosts (recordedUsers users c) c = false := by
  unfold recordedUsers
  split
  · exact h
  · rw [Bool.eq_false_iff] at h ⊢
    intro hr
    obtain ⟨before, u, after, he, hne, v, hv, hvh⟩ := (interleavesHosts_iff _ _).mp hr
    rcases List.eq_nil_or_concat after with rfl | ⟨after, x, rfl⟩
    · have := congrArg List.getLast? he
      have hc : c = u := by simpa using this
      exact hne (by rw [hc])
    · refine h ((interleavesHosts_iff _ _).mpr ⟨before, u, after, ?_, hne, v, hv, hvh⟩)
      have he' : users ++ [c] = (before ++ u :: after) ++ [x] := by simpa using he
      exact (List.append_inj' he' rfl).1

theorem not_shared_of_recorded {s t : State} (h : ¬ SharedClients s) (hu : t.users = recordedUsers s.users s.issuer)
    (hi : t.issuer = s.issuer) : ¬ SharedClients t := by
  rw [← State.sharedUse_iff, State.sharedUse, Bool.or_eq_true, not_or] at h ⊢
  rw [hu, hi]
  refine ⟨?_, ?_⟩
  · intro hm
    refine h.1 ((mixesStreams_iff _ _).mpr ?_)
    obtain ⟨⟨u, hu1, hu2⟩, v, hv1, hv2⟩ := (mixesStreams_iff _ _).mp hm
    refine ⟨⟨u, ?_, hu2⟩, v, ?_, hv2⟩
    · exact ((mem_recordedUsers _ _ _).mp hu1).resolve_right fun he => hu2 (by rw [he])
    · exact ((mem_recordedUsers _ _ _).mp hv1).resolve_right fun he => hv2 (by rw [he])
  · rw [interleavesHosts_recordedUsers (Bool.eq_false_iff.mpr h.2)]
    simp

/-- A context that one host alone uses is not shared. -/
theorem not_shared_of_one_host {s : State} (h : ∀ u ∈ s.users, u.host = s.issuer.host) : ¬ SharedClients s := by
  rintro (⟨⟨u, hu, hne⟩, -⟩ | ⟨before, u, after, he, hne, -⟩)
  · exact hne (h u hu)
  · exact hne (h u (by rw [he]; simp))

end Sys2Proof.Machine
end

