-- ==== Sys2Proof/Laws/Memory.lean ====
section
/-! SUPPORT. The laws of host memory: what a read gives after a write, and that every memory operation keeps the
canonical form and the address space (20_memory.md R54, R60). -/

namespace Sys2Proof.Machine

theorem Memory.read_of_forall_ne {m : Memory} {a : Nat} (h : ∀ c ∈ m, c.1 ≠ a) :
    m.read a = Config.unlistedByte := by
  induction m with
  | nil => rfl
  | cons c m ih =>
    obtain ⟨b, w⟩ := c
    have hb : b ≠ a := h (b, w) (by simp)
    simp only [Memory.read, if_neg hb]
    exact ih fun c hc => h c (by simp [hc])

theorem Memory.read_cons {m : Memory} {a : Nat} (h : ∀ c ∈ m, a < c.1) (v : Byte) (b : Nat) :
    (Memory.cons a v m).read b = if b = a then v else m.read b := by
  unfold Memory.cons
  by_cases hv : v = Config.unlistedByte
  · rw [if_pos hv]
    by_cases hb : b = a
    · rw [if_pos hb, hv]
      exact Memory.read_of_forall_ne fun c hc => by have := h c hc; omega
    · rw [if_neg hb]
  · rw [if_neg hv]
    by_cases hb : b = a
    · simp [Memory.read, hb]
    · simp [Memory.read, hb, Ne.symm hb]

theorem Memory.wf_tail {c : Host.Cell} {m : Memory} (h : Memory.wf (c :: m)) : Memory.wf m :=
  ⟨(List.pairwise_cons.mp h.1).2, fun d hd => h.2 d (by simp [hd])⟩

theorem Memory.wf_head {c : Host.Cell} {m : Memory} (h : Memory.wf (c :: m)) : ∀ d ∈ m, c.1 < d.1 :=
  (List.pairwise_cons.mp h.1).1

theorem Memory.wf_cons {m : Memory} (hm : m.wf) {a : Nat} (h : ∀ c ∈ m, a < c.1) (v : Byte) :
    (Memory.cons a v m).wf := by
  unfold Memory.cons
  split
  · exact hm
  next hv =>
    exact ⟨List.pairwise_cons.mpr ⟨h, hm.1⟩, fun c hc => by
      rcases List.mem_cons.mp hc with rfl | hc
      · exact hv
      · exact hm.2 c hc⟩

theorem Memory.mem_cons_addr {m : Memory} {a : Nat} {v : Byte} {c : Host.Cell} (h : c ∈ Memory.cons a v m) :
    c.1 = a ∨ c ∈ m := by
  unfold Memory.cons at h
  split at h
  · exact .inr h
  · rcases List.mem_cons.mp h with rfl | h
    · exact .inl rfl
    · exact .inr h

/-- The addresses a write lists: the old ones and its own. -/
theorem Memory.mem_write_addr {m : Memory} {a : Nat} {v : Byte} {c : Host.Cell} (h : c ∈ m.write a v) :
    c.1 = a ∨ c ∈ m := by
  induction m with
  | nil => exact Memory.mem_cons_addr h
  | cons d m ih =>
    obtain ⟨b, w⟩ := d
    simp only [Memory.write] at h
    split at h
    · exact Memory.mem_cons_addr h
    · split at h
      · exact (Memory.mem_cons_addr h).imp id fun h => List.mem_cons_of_mem _ h
      · rcases List.mem_cons.mp h with rfl | h
        · exact .inr (by simp)
        · exact (ih h).imp id fun h => List.mem_cons_of_mem _ h

/-- A write keeps the canonical form. -/
theorem Memory.wf_write {m : Memory} (hm : m.wf) (a : Nat) (v : Byte) : (m.write a v).wf := by
  induction m with
  | nil => exact Memory.wf_cons hm (by simp) v
  | cons d m ih =>
    obtain ⟨b, w⟩ := d
    have hhead := Memory.wf_head hm
    have htail := Memory.wf_tail hm
    simp only [Memory.write]
    split
    next hab =>
      refine Memory.wf_cons hm (fun c hc => ?_) v
      rcases List.mem_cons.mp hc with rfl | hc
      · exact hab
      · exact hab.trans (hhead c hc)
    next hab =>
      split
      next heq => subst heq; exact Memory.wf_cons htail hhead v
      next hne =>
        have hlt : b < a := by omega
        refine ⟨List.pairwise_cons.mpr ⟨fun c hc => ?_, (ih htail).1⟩, fun c hc => ?_⟩
        · rcases Memory.mem_write_addr hc with h | h
          · simpa [h] using hlt
          · exact hhead c h
        · rcases List.mem_cons.mp hc with rfl | hc
          · exact hm.2 _ (by simp)
          · exact (ih htail).2 c hc

/-- A write within the space stays within it. -/
theorem Memory.inSpace_write {m : Memory} (hm : m.inSpace) {a : Nat} (ha : a < Config.memTop) (v : Byte) :
    (m.write a v).inSpace := fun c hc => by
  rcases Memory.mem_write_addr hc with h | h
  · exact h ▸ ha
  · exact hm c h

/-- A read after a write: the value written at its address, and every other byte unchanged (R60). -/
theorem Memory.read_write {m : Memory} (hm : m.wf) (a : Nat) (v : Byte) (b : Nat) :
    (m.write a v).read b = if b = a then v else m.read b := by
  induction m with
  | nil => exact Memory.read_cons (by simp) v b
  | cons d m ih =>
    obtain ⟨c, w⟩ := d
    have hhead := Memory.wf_head hm
    simp only [Memory.write]
    split
    next hac =>
      refine Memory.read_cons (fun d hd => ?_) v b
      rcases List.mem_cons.mp hd with rfl | hd
      · exact hac
      · exact hac.trans (hhead d hd)
    next hac =>
      split
      next heq =>
        subst heq
        rw [Memory.read_cons hhead]
        by_cases hb : b = a
        · simp [hb]
        · simp [Memory.read, hb, Ne.symm hb]
      next hne =>
        simp only [Memory.read, ih (Memory.wf_tail hm)]
        by_cases hb : c = b
        · have : b ≠ a := by omega
          simp [hb, this]
        · simp [hb]

theorem Memory.wf_nil : Memory.wf [] := ⟨.nil, by simp⟩

/-! ### Storing and loading runs of bytes -/

/-- Storing bytes changes memory and nothing else of the state. -/
theorem State.storeBytes_eq (s : State) (a : Nat) (vs : List Byte) :
    s.storeBytes a vs = { s with mem := (s.storeBytes a vs).mem } := by
  induction vs generalizing s a with
  | nil => rfl
  | cons v vs ih =>
    rw [State.storeBytes, ih]
    rfl

theorem State.storeBytes_wf {s : State} (h : s.mem.wf) (a : Nat) (vs : List Byte) : (s.storeBytes a vs).mem.wf := by
  induction vs generalizing s a with
  | nil => exact h
  | cons v vs ih => exact ih (Memory.wf_write h a v) _

theorem State.storeBytes_inSpace {s : State} (h : s.mem.inSpace) {a : Nat} {vs : List Byte}
    (ha : a + vs.length ≤ Config.memTop) : (s.storeBytes a vs).mem.inSpace := by
  induction vs generalizing s a with
  | nil => exact h
  | cons v vs ih =>
    simp only [List.length_cons] at ha
    exact ih (Memory.inSpace_write h (by omega) v) (by omega)

/-- After storing bytes at `a`: the stored bytes in the range, and every other byte unchanged. -/
theorem State.storeBytes_read {s : State} (h : s.mem.wf) (a : Nat) (vs : List Byte) (b : Nat) :
    (s.storeBytes a vs).mem.read b =
      if h : a ≤ b ∧ b - a < vs.length then vs[b - a]'h.2 else s.mem.read b := by
  induction vs generalizing s a with
  | nil => simp [State.storeBytes]
  | cons v vs ih =>
    have hw : (s.storeByte a v).mem.wf := Memory.wf_write h a v
    rw [State.storeBytes, ih hw, State.storeByte_mem, Memory.read_write h]
    simp only [List.length_cons]
    by_cases h1 : b = a
    · subst h1; simp
    · by_cases h2 : a + 1 ≤ b ∧ b - (a + 1) < vs.length
      · rw [dif_pos h2, dif_pos (by omega)]
        have : b - a = (b - (a + 1)) + 1 := by omega
        simp only [this, List.getElem_cons_succ]
      · rw [dif_neg h2, if_neg h1, dif_neg (by omega)]

@[simp] theorem State.loadBytes_length (s : State) (a n : Nat) : (s.loadBytes a n).length = n := by
  induction n generalizing a with
  | zero => rfl
  | succ n ih => simp [State.loadBytes, ih]

@[simp] theorem State.loadBytes_getElem (s : State) (a n i : Nat) (h : i < (s.loadBytes a n).length) :
    (s.loadBytes a n)[i] = s.mem.read (a + i) := by
  induction n generalizing a i with
  | zero => simp at h
  | succ n ih =>
    cases i with
    | zero => rfl
    | succ i =>
      have : i < (s.loadBytes (a + 1) n).length := by simpa using h
      simp only [State.loadBytes, List.getElem_cons_succ, ih _ _ this]
      congr 1
      omega

end Sys2Proof.Machine
end

