-- ==== Sys2Proof/Laws/Operations.lean ====
section
/-! SUPPORT. One lemma for each shared operation: everything it can do (the gates of a command, the argument checks,
the ranges, a buffer command, a step). -/

namespace Sys2Proof.Machine

/-! ## The gates of a command -/

theorem State.withContext_valid {s : State} (h : s.ctx.valid = true) (k : State → Outcome) :
    s.withContext k = k s := by
  simp [State.withContext, h]

theorem State.withContext_invalid {s : State} (h : s.ctx.valid = false) (k : State → Outcome) :
    s.withContext k = .next (s.raise .noContext .none) := by
  simp [State.withContext, h]

theorem State.unlessShared_of_not {s : State} (h : ¬ SharedClients s) (k : State → State) :
    s.unlessShared k = .next (k s).accept := by
  have : s.sharedUse ≠ true := fun hs => h ((State.sharedUse_iff s).mp hs)
  simp [State.unlessShared, this]

theorem State.unlessShared_of_shared {s : State} (h : SharedClients s) (k : State → State) :
    s.unlessShared k = .refused .shared := by
  simp [State.unlessShared, (State.sharedUse_iff s).mpr h]

/-! ## Addresses, ranges and argument checks -/

theorem rangesShare_iff (a n b m : Nat) :
    rangesShare a n b m = true ↔ ∃ x, (a ≤ x ∧ x < a + n) ∧ (b ≤ x ∧ x < b + m) := by
  simp only [rangesShare, decide_eq_true_eq]
  constructor
  · intro h; exact ⟨max a b, by omega, by omega⟩
  · rintro ⟨x, h1, h2⟩; omega

theorem State.backed_iff (s : State) (a : Nat) : s.backed a = true ↔ IsBacked s a := by
  simp only [State.backed, ramBacks, List.any_eq_true, Bool.and_eq_true, decide_eq_true_eq, IsBacked]
  constructor <;> rintro ⟨r, hr, h1, h2⟩ <;> exact ⟨r, hr, by omega, by omega⟩

theorem State.backedRange_iff (s : State) (a n : Nat) :
    s.backedRange a n = true ↔ ∀ x, a ≤ x → x < a + n → IsBacked s x := by
  simp only [State.backedRange, List.all_eq_true, List.mem_range, State.backed_iff]
  constructor
  · intro h x h1 h2
    have := h (x - a) (by omega)
    rwa [show a + (x - a) = x by omega] at this
  · intro h i hi; exact_mod_cast h (a + i) (by omega) (by omega)

/-- The first input address, when the offset is not negative (R63). -/
theorem State.inAddr_eq {s : State} (h : 0 ≤ s.inOff.toInt) : (s.inAddr : Int) = s.inBase.toNat + s.inOff.toInt := by
  simp only [State.inAddr, State.bufferOperands]; omega

/-- The first output address, when the offset is not negative (R63). -/
theorem State.outAddr_eq {s : State} (h : 0 ≤ s.outOff.toInt) :
    (s.outAddr : Int) = s.outBase.toNat + s.outOff.toInt := by
  simp only [State.outAddr, State.bufferOperands]; omega

theorem inRangeBad_iff (s : State) (nin : Int) : inRangeBad s.bufferOperands nin = true ↔ InputOutOfBounds s nin := by
  simp only [inRangeBad, Bool.or_eq_true, decide_eq_true_eq]
  simp only [State.bufferOperands, InputOutOfBounds, Config.memTop, Config.addrWidth]
  omega

theorem outRangeBad_iff (s : State) (nout : Int) :
    outRangeBad s.bufferOperands nout = true ↔ OutputOutOfBounds s nout := by
  simp only [outRangeBad, Bool.or_eq_true, decide_eq_true_eq]
  simp only [State.bufferOperands, OutputOutOfBounds, Config.memTop, Config.addrWidth]
  omega

theorem encodeCountBad_iff (s : State) : encodeCountBad s.bufferOperands = true ↔ EncodeCountIllegal s := by
  simp only [encodeCountBad, Bool.or_eq_true, decide_eq_true_eq]
  exact Iff.rfl

theorem decodeCountBad_iff (s : State) : decodeCountBad s.bufferOperands = true ↔ DecodeCountIllegal s := by
  simp only [decodeCountBad, decide_eq_true_eq]
  exact Iff.rfl

/-- Both bounds checks passed: the ranges lie in the address space, at the addresses the model computes (R63). -/
theorem ranges_in_space {s : State} {nin nout : Int} (hi : ¬ InputOutOfBounds s nin)
    (ho : ¬ OutputOutOfBounds s nout) :
    ((s.inAddr : Int) = s.inBase.toNat + s.inOff.toInt ∧ (s.inAddr : Int) + nin ≤ 2 ^ 32) ∧
    ((s.outAddr : Int) = s.outBase.toNat + s.outOff.toInt ∧ (s.outAddr : Int) + nout ≤ 2 ^ 32) := by
  simp only [InputOutOfBounds, OutputOutOfBounds, not_or, not_lt] at hi ho
  have h1 := State.inAddr_eq (s := s) (by omega)
  have h2 := State.outAddr_eq (s := s) (by omega)
  omega

/-! ## The buffer commands -/

/-- Everything a buffer command can do on a valid context, in the priority of R136. -/
theorem bufferCommand_cases {s : State} (hv : s.ctx.valid = true) (bad : Bool) {nin nout : Int}
    (hn : bad = false → 0 ≤ nin ∧ 0 ≤ nout) (run : Nat → Nat → State → State) :
    (bad = true → bufferCommand bad nin nout run s = .next (s.raise .invalidArgument .count)) ∧
    (bad = false → InputOutOfBounds s nin →
      bufferCommand bad nin nout run s = .next (s.raise .invalidArgument .inRange)) ∧
    (bad = false → ¬ InputOutOfBounds s nin → OutputOutOfBounds s nout →
      bufferCommand bad nin nout run s = .next (s.raise .invalidArgument .outRange)) ∧
    (bad = false → ¬ InputOutOfBounds s nin → ¬ OutputOutOfBounds s nout →
      (RangesOverlap s nin nout → bufferCommand bad nin nout run s = .refused .overlap) ∧
      (¬ RangesOverlap s nin nout → SomeUnbacked s nin nout →
        bufferCommand bad nin nout run s = .refused .unbacked) ∧
      (¬ RangesOverlap s nin nout → ¬ SomeUnbacked s nin nout → SharedClients s →
        bufferCommand bad nin nout run s = .refused .shared) ∧
      (¬ RangesOverlap s nin nout → ¬ SomeUnbacked s nin nout → ¬ SharedClients s →
        bufferCommand bad nin nout run s = .next (run s.inAddr s.outAddr s).accept)) := by
  simp only [bufferCommand, State.withContext_valid hv, argumentCause]
  refine ⟨fun hb => by simp [hb], fun hb hi => ?_, fun hb hi ho => ?_, fun hb hi ho => ?_⟩
  · simp [hb, (inRangeBad_iff s nin).mpr hi]
  · simp [hb, (inRangeBad_iff s nin).not.mpr hi, (outRangeBad_iff s nout).mpr ho]
  · obtain ⟨⟨hia, hit⟩, hoa, hot⟩ := ranges_in_space hi ho
    obtain ⟨hn1, hn2⟩ := hn hb
    have hov : rangesShare s.inAddr nin.toNat s.outAddr nout.toNat = true ↔ RangesOverlap s nin nout := by
      rw [rangesShare_iff, RangesOverlap]
      constructor
      · rintro ⟨x, h1, h2⟩
        exact ⟨x, by simp only [InInputRange]; omega, by simp only [InOutputRange]; omega⟩
      · rintro ⟨x, h1, h2⟩
        simp only [InInputRange, InOutputRange] at h1 h2
        exact ⟨x.toNat, by omega, by omega⟩
    have hbk : (s.backedRange s.inAddr nin.toNat && s.backedRange s.outAddr nout.toNat) = true ↔
        ¬ SomeUnbacked s nin nout := by
      rw [Bool.and_eq_true, State.backedRange_iff, State.backedRange_iff]
      constructor
      · rintro ⟨h1, h2⟩ ⟨x, hx, hnb⟩
        simp only [InInputRange, InOutputRange] at hx
        refine hnb ?_
        rcases hx with hx | hx
        · have := h1 x.toNat (by omega) (by omega)
          rwa [show ((x.toNat : Nat) : Int) = x by omega] at this
        · have := h2 x.toNat (by omega) (by omega)
          rwa [show ((x.toNat : Nat) : Int) = x by omega] at this
      · intro h
        constructor <;> intro x h1 h2 <;> by_contra hc
        · exact h ⟨x, .inl (by simp only [InInputRange]; omega), hc⟩
        · exact h ⟨x, .inr (by simp only [InOutputRange]; omega), hc⟩
    simp only [hb, (inRangeBad_iff s nin).not.mpr hi, (outRangeBad_iff s nout).not.mpr ho]
    refine ⟨fun h => ?_, fun h1 h2 => ?_, fun h1 h2 h3 => ?_, fun h1 h2 h3 => ?_⟩
    · simp [hov.mpr h]
    · have : (s.backedRange s.inAddr nin.toNat && s.backedRange s.outAddr nout.toNat) = false :=
        Bool.eq_false_iff.mpr (hbk.not.mpr (not_not.mpr h2))
      simp [hov.not.mpr h1, this]
    · simp [hov.not.mpr h1, hbk.mpr h2, State.unlessShared_of_shared h3]
    · simp [hov.not.mpr h1, hbk.mpr h2, State.unlessShared_of_not h3]

/-- A buffer command that answers a next state has done one of two things: only a STATUS was written, or every check
passed and the execution ran. -/
theorem bufferCommand_next {s t : State} {bad : Bool} {nin nout : Int} {run : Nat → Nat → State → State}
    (hn : bad = false → 0 ≤ nin ∧ 0 ≤ nout) (h : bufferCommand bad nin nout run s = .next t) :
    (∃ k c, (k = .noContext ∧ c = .none ∨ k = .invalidArgument ∧ c ≠ .none) ∧ t = s.raise k c) ∨
    (s.ctx.valid = true ∧ bad = false ∧ ¬ InputOutOfBounds s nin ∧ ¬ OutputOutOfBounds s nout ∧
      ¬ RangesOverlap s nin nout ∧ ¬ SomeUnbacked s nin nout ∧ ¬ SharedClients s ∧
      t = (run s.inAddr s.outAddr s).accept) := by
  cases hv : s.ctx.valid with
  | false =>
    rw [bufferCommand, State.withContext_invalid hv] at h
    exact .inl ⟨.noContext, .none, .inl ⟨rfl, rfl⟩, by simpa using h.symm⟩
  | true =>
    obtain ⟨hcount, hin, hout, hrest⟩ := bufferCommand_cases hv bad hn run
    cases hb : bad with
    | true =>
      rw [hcount hb] at h
      exact .inl ⟨.invalidArgument, .count, .inr ⟨rfl, by simp⟩, by simpa using h.symm⟩
    | false =>
      by_cases hi : InputOutOfBounds s nin
      · rw [hin hb hi] at h
        exact .inl ⟨.invalidArgument, .inRange, .inr ⟨rfl, by simp⟩, by simpa using h.symm⟩
      by_cases ho : OutputOutOfBounds s nout
      · rw [hout hb hi ho] at h
        exact .inl ⟨.invalidArgument, .outRange, .inr ⟨rfl, by simp⟩, by simpa using h.symm⟩
      obtain ⟨hov, hun, hsh, hok⟩ := hrest hb hi ho
      by_cases h1 : RangesOverlap s nin nout
      · rw [hov h1] at h; cases h
      by_cases h2 : SomeUnbacked s nin nout
      · rw [hun h1 h2] at h; cases h
      by_cases h3 : SharedClients s
      · rw [hsh h1 h2 h3] at h; cases h
      rw [hok h1 h2 h3] at h
      exact .inr ⟨rfl, rfl, hi, ho, h1, h2, h3, by simpa using h.symm⟩

theorem encodeCounts_nonneg {s : State} (h : encodeCountBad s.bufferOperands = false) :
    0 ≤ s.encodeIn ∧ 0 ≤ s.encodeOut := by
  have := (encodeCountBad_iff s).not.mp (by simp [h])
  simp only [EncodeCountIllegal, not_or] at this
  simp only [State.encodeIn, State.encodeOut, State.bufferOperands]
  omega

theorem decodeCounts_nonneg {s : State} (h : decodeCountBad s.bufferOperands = false) :
    0 ≤ s.decodeIn ∧ 0 ≤ s.decodeOut := by
  have := (decodeCountBad_iff s).not.mp (by simp [h])
  simp only [DecodeCountIllegal, not_lt] at this
  simp only [State.decodeIn, State.decodeOut, State.bufferOperands]
  omega

/-! ## What a next state of each command is -/

theorem execInit_next (v : Variant) (s : State) :
    exec (.init v) s = .next (((s.setCtx (Context.fresh v)).setUsers [s.issuer]).finish) := rfl

theorem execEnc8_next {s t : State} (h : exec .enc8 s = .next t) :
    (s.ctx.valid = false ∧ t = s.raise .noContext .none) ∨
    (s.ctx.valid = true ∧ ¬ SharedClients s ∧ t =
      ((s.setCtx (encodeContext s.dinSamples s.ctx)).setDout
        (doutOfCode (encodeGroup s.dinSamples s.ctx))).accept) := by
  simp only [exec, execEnc8] at h
  cases hv : s.ctx.valid with
  | false => rw [State.withContext_invalid hv] at h; exact .inl ⟨rfl, by simpa using h.symm⟩
  | true =>
    rw [State.withContext_valid hv] at h
    by_cases hs : SharedClients s
    · rw [State.unlessShared_of_shared hs] at h; cases h
    · rw [State.unlessShared_of_not hs] at h; exact .inr ⟨rfl, hs, by simpa using h.symm⟩

theorem execDec8_next {s t : State} (h : exec .dec8 s = .next t) :
    (s.ctx.valid = false ∧ t = s.raise .noContext .none) ∨
    (s.ctx.valid = true ∧ ¬ SharedClients s ∧ t =
      ((s.setCtx (decodeContext s.dinBits s.ctx)).setDout
        (doutOfSamples (decodeSamples s.dinBits s.ctx))).accept) := by
  simp only [exec, execDec8] at h
  cases hv : s.ctx.valid with
  | false => rw [State.withContext_invalid hv] at h; exact .inl ⟨rfl, by simpa using h.symm⟩
  | true =>
    rw [State.withContext_valid hv] at h
    by_cases hs : SharedClients s
    · rw [State.unlessShared_of_shared hs] at h; cases h
    · rw [State.unlessShared_of_not hs] at h; exact .inr ⟨rfl, hs, by simpa using h.symm⟩

theorem execEncb_next {s t : State} (h : exec .encb s = .next t) :
    (∃ k c, (k = .noContext ∧ c = .none ∨ k = .invalidArgument ∧ c ≠ .none) ∧ t = s.raise k c) ∨
    (EncodeAccepted s ∧ t = (encodeGroups s.encodeOut.toNat s.inAddr s.outAddr s).accept) := by
  rcases bufferCommand_next encodeCounts_nonneg h with h | ⟨hv, hb, hi, ho, h1, h2, h3, ht⟩
  · exact .inl h
  · exact .inr ⟨⟨hv, (encodeCountBad_iff s).not.mp (by simp [hb]), hi, ho, h1, h2, h3⟩, ht⟩

theorem execDecb_next {s t : State} (h : exec .decb s = .next t) :
    (∃ k c, (k = .noContext ∧ c = .none ∨ k = .invalidArgument ∧ c ≠ .none) ∧ t = s.raise k c) ∨
    (DecodeAccepted s ∧ t = (decodeBytes s.decodeIn.toNat s.inAddr s.outAddr s).accept) := by
  rcases bufferCommand_next decodeCounts_nonneg h with h | ⟨hv, hb, hi, ho, h1, h2, h3, ht⟩
  · exact .inl h
  · exact .inr ⟨⟨hv, (decodeCountBad_iff s).not.mp (by simp [hb]), hi, ho, h1, h2, h3⟩, ht⟩

theorem execEncb_accepted {s : State} (h : EncodeAccepted s) :
    exec .encb s = .next (encodeGroups s.encodeOut.toNat s.inAddr s.outAddr s).accept := by
  obtain ⟨hv, hc, hi, ho, h1, h2, h3⟩ := h
  have hb : encodeCountBad s.bufferOperands = false := Bool.eq_false_iff.mpr ((encodeCountBad_iff s).not.mpr hc)
  exact ((bufferCommand_cases hv _ encodeCounts_nonneg _).2.2.2 hb hi ho).2.2.2 h1 h2 h3

theorem execDecb_accepted {s : State} (h : DecodeAccepted s) :
    exec .decb s = .next (decodeBytes s.decodeIn.toNat s.inAddr s.outAddr s).accept := by
  obtain ⟨hv, hc, hi, ho, h1, h2, h3⟩ := h
  have hb : decodeCountBad s.bufferOperands = false := Bool.eq_false_iff.mpr ((decodeCountBad_iff s).not.mpr hc)
  exact ((bufferCommand_cases hv _ decodeCounts_nonneg _).2.2.2 hb hi ho).2.2.2 h1 h2 h3

theorem execEnc8_accepted {s : State} (hv : s.ctx.valid = true) (hs : ¬ SharedClients s) :
    exec .enc8 s = .next
      ((s.setCtx (encodeContext s.dinSamples s.ctx)).setDout
        (doutOfCode (encodeGroup s.dinSamples s.ctx))).accept := by
  simp only [exec, execEnc8]
  rw [State.withContext_valid hv, State.unlessShared_of_not hs]

theorem execDec8_accepted {s : State} (hv : s.ctx.valid = true) (hs : ¬ SharedClients s) :
    exec .dec8 s = .next
      ((s.setCtx (decodeContext s.dinBits s.ctx)).setDout
        (doutOfSamples (decodeSamples s.dinBits s.ctx))).accept := by
  simp only [exec, execDec8]
  rw [State.withContext_valid hv, State.unlessShared_of_not hs]

/-- An ENCB that ends with STATUS OK was accepted. -/
theorem execEncb_ok {s t : State} (h : exec .encb s = .next t) (hk : t.status.kind = .ok) :
    EncodeAccepted s ∧ t = (encodeGroups s.encodeOut.toNat s.inAddr s.outAddr s).accept := by
  rcases execEncb_next h with ⟨k, c, hc, rfl⟩ | h
  · rcases hc with ⟨rfl, rfl⟩ | ⟨rfl, _⟩ <;> simp at hk
  · exact h

/-- A DECB that ends with STATUS OK was accepted. -/
theorem execDecb_ok {s t : State} (h : exec .decb s = .next t) (hk : t.status.kind = .ok) :
    DecodeAccepted s ∧ t = (decodeBytes s.decodeIn.toNat s.inAddr s.outAddr s).accept := by
  rcases execDecb_next h with ⟨k, c, hc, rfl⟩ | h
  · rcases hc with ⟨rfl, rfl⟩ | ⟨rfl, _⟩ <;> simp at hk
  · exact h

/-- The counts of an accepted ENCB: eight input bytes for each output byte, and at least one output byte. -/
theorem encodeAccepted_counts {s : State} (h : EncodeAccepted s) :
    8 * s.encodeOut.toNat = s.count.toInt.toNat ∧ s.encodeOut.toNat = s.count.toInt.toNat / 8 ∧
      0 < s.encodeOut.toNat := by
  obtain ⟨-, hc, -⟩ := h
  simp only [EncodeCountIllegal, not_or] at hc
  simp only [State.encodeOut, State.bufferOperands]
  omega

/-! ## A step -/

/-- A step of a state that awaits an action performs that action. -/
theorem step_of_awaits {s : State} {a : HostAction} {rest : List HostAction} (h : Awaits s a rest) :
    step s = perform a (s.setPending rest) := by
  simp [step, hostStep, h.1, h.2.1]

/-- A step that answers a next state either idled or performed the first action. -/
theorem step_next {s t : State} (h : step s = .next t) :
    s.refusedMark = none ∧
      ((s.pending = [] ∧ t = s) ∨ ∃ a rest, s.pending = a :: rest ∧ perform a (s.setPending rest) = .next t) := by
  simp only [step, hostStep] at h
  cases hm : s.refusedMark with
  | some r => simp [hm] at h
  | none =>
    rw [hm] at h
    refine ⟨rfl, ?_⟩
    cases hp : s.pending with
    | nil => rw [hp] at h; exact .inl ⟨rfl, by simpa using h.symm⟩
    | cons a rest => rw [hp] at h; exact .inr ⟨a, rest, rfl, h⟩

end Sys2Proof.Machine
end

