-- ==== Sys2Proof/Laws/Codec.lean ====
section
/-! SUPPORT. The laws of the codec's functions: the fields each step writes, the bits and lanes of packed values, how
runs of steps split, and what the two buffer loops do. -/

namespace Sys2Proof.Machine

/-- The floor shift as the floor quotient (R12). -/
theorem floorShift_eq_fdiv (a : Int) (n : Nat) : floorShift a n = a.fdiv (2 ^ n) := by
  rw [floorShift, Int.fdiv_eq_ediv_of_nonneg _ (by positivity)]

/-! ## The fields a step writes -/

@[simp] theorem advance_variant (b : Bool) (c : Context) : (advance b c).variant = c.variant := rfl
@[simp] theorem advance_valid (b : Bool) (c : Context) : (advance b c).valid = c.valid := rfl
@[simp] theorem advance_lastBit (b : Bool) (c : Context) : (advance b c).lastBit = b := rfl
@[simp] theorem advance_level (b : Bool) (c : Context) : (advance b c).level = nextLevel b c := rfl
@[simp] theorem advance_response (b : Bool) (c : Context) : (advance b c).response = nextResponse b c := rfl
@[simp] theorem advance_filteredLastLevel (b : Bool) (c : Context) :
    (advance b c).filteredLastLevel = c.filteredLastLevel := rfl
@[simp] theorem advance_lowPassLevel (b : Bool) (c : Context) : (advance b c).lowPassLevel = c.lowPassLevel := rfl

@[simp] theorem decodeNext_variant (b : Bool) (c : Context) : (decodeNext b c).variant = c.variant := rfl
@[simp] theorem decodeNext_valid (b : Bool) (c : Context) : (decodeNext b c).valid = c.valid := rfl
@[simp] theorem decodeNext_lastBit (b : Bool) (c : Context) : (decodeNext b c).lastBit = b := rfl
@[simp] theorem decodeNext_level (b : Bool) (c : Context) : (decodeNext b c).level = nextLevel b c := rfl
@[simp] theorem decodeNext_response (b : Bool) (c : Context) : (decodeNext b c).response = nextResponse b c := rfl
@[simp] theorem decodeNext_filteredLastLevel (b : Bool) (c : Context) :
    (decodeNext b c).filteredLastLevel = nextLevel b c := rfl
@[simp] theorem decodeNext_lowPassLevel (b : Bool) (c : Context) :
    (decodeNext b c).lowPassLevel = filteredOutput c (shapedLevel b c (advance b c)) := rfl

/-- A property that every ADVANCE keeps is kept by a run of ENCSTEPs. -/
theorem encodeContext_keeps {P : Context → Prop} (h : ∀ b c, P c → P (advance b c)) (xs : List Int) {c : Context}
    (hc : P c) : P (encodeContext xs c) := by
  induction xs generalizing c with
  | nil => exact hc
  | cons x xs ih => exact ih (h _ _ hc)

/-- A property that every DECSTEP keeps is kept by a run of DECSTEPs. -/
theorem decodeContext_keeps {P : Context → Prop} (h : ∀ b c, P c → P (decodeNext b c)) (bs : List Bool) {c : Context}
    (hc : P c) : P (decodeContext bs c) := by
  induction bs generalizing c with
  | nil => exact hc
  | cons b bs ih => exact ih (h _ _ hc)

/-! ## Runs of steps -/

theorem encodeContext_append (xs ys : List Int) (c : Context) :
    encodeContext (xs ++ ys) c = encodeContext ys (encodeContext xs c) := by
  induction xs generalizing c with
  | nil => rfl
  | cons x xs ih => exact ih _

theorem encodeBits_append (xs ys : List Int) (c : Context) :
    encodeBits (xs ++ ys) c = encodeBits xs c ++ encodeBits ys (encodeContext xs c) := by
  induction xs generalizing c with
  | nil => rfl
  | cons x xs ih => simp [encodeBits, encodeContext, ih]

@[simp] theorem encodeBits_length (xs : List Int) (c : Context) : (encodeBits xs c).length = xs.length := by
  induction xs generalizing c with
  | nil => rfl
  | cons x xs ih => simp [encodeBits, ih]

theorem decodeContext_append (xs ys : List Bool) (c : Context) :
    decodeContext (xs ++ ys) c = decodeContext ys (decodeContext xs c) := by
  induction xs generalizing c with
  | nil => rfl
  | cons x xs ih => exact ih _

theorem decodeSamples_append (xs ys : List Bool) (c : Context) :
    decodeSamples (xs ++ ys) c = decodeSamples xs c ++ decodeSamples ys (decodeContext xs c) := by
  induction xs generalizing c with
  | nil => rfl
  | cons x xs ih => simp [decodeSamples, decodeContext, ih]

@[simp] theorem decodeSamples_length (bs : List Bool) (c : Context) : (decodeSamples bs c).length = bs.length := by
  induction bs generalizing c with
  | nil => rfl
  | cons x xs ih => simp [decodeSamples, ih]

/-- The context before sample `j+1` is the one after sample `j`. -/
theorem encodeContext_take_succ (xs : List Int) (c : Context) {j : Nat} (h : j < xs.length) :
    encodeContext (xs.take (j + 1)) c = encodeNext xs[j] (encodeContext (xs.take j) c) := by
  rw [List.take_succ_eq_append_getElem h, encodeContext_append]
  rfl

theorem encodeBits_getElem (xs : List Int) (c : Context) {j : Nat} (h : j < xs.length) :
    (encodeBits xs c)[j]'(by simpa using h) = encodeBit xs[j] (encodeContext (xs.take j) c) := by
  induction xs generalizing c j with
  | nil => simp at h
  | cons x xs ih =>
    cases j with
    | zero => rfl
    | succ j => simpa [encodeBits, encodeContext] using ih (encodeNext x c) (by simpa using h)

theorem decodeContext_take_succ (bs : List Bool) (c : Context) {j : Nat} (h : j < bs.length) :
    decodeContext (bs.take (j + 1)) c = decodeNext bs[j] (decodeContext (bs.take j) c) := by
  rw [List.take_succ_eq_append_getElem h, decodeContext_append]
  rfl

theorem decodeSamples_getElem (bs : List Bool) (c : Context) {j : Nat} (h : j < bs.length) :
    (decodeSamples bs c)[j]'(by simpa using h) = decodeSample bs[j] (decodeContext (bs.take j) c) := by
  induction bs generalizing c j with
  | nil => simp at h
  | cons x xs ih =>
    cases j with
    | zero => rfl
    | succ j => simpa [decodeSamples, decodeContext] using ih (decodeNext x c) (by simpa using h)

/-! ## Packed bits and lanes -/

theorem packBits_lt (bs : List Bool) : packBits bs < 2 ^ bs.length := by
  induction bs with
  | nil => simp [packBits]
  | cons b bs ih =>
    simp only [packBits, List.length_cons, Nat.pow_succ]
    have := b.toNat_le
    omega

theorem packBits_testBit (bs : List Bool) {j : Nat} (h : j < bs.length) : (packBits bs).testBit j = bs[j] := by
  induction bs generalizing j with
  | nil => simp at h
  | cons b bs ih =>
    cases j with
    | zero => cases b <;> simp [packBits, Nat.testBit_zero, Nat.add_mod]
    | succ j =>
      have : (packBits (b :: bs)) / 2 = packBits bs := by
        simp only [packBits]; have := b.toNat_le; omega
      rw [Nat.testBit_succ, this]
      simpa using ih (by simpa using h)

/-- Bit `j` of a code byte is bit `j` of its group (R80). -/
theorem codeByte_getLsbD {bs : List Bool} (h8 : bs.length = 8) {j : Nat} (h : j < bs.length) :
    (codeByte bs).getLsbD j = bs[j] := by
  have hj : j < 8 := h8 ▸ h
  rw [← packBits_testBit bs h, codeByte, BitVec.getLsbD_ofNat]
  simp [hj]

@[simp] theorem bitsOfByte_length (c : Byte) : (bitsOfByte c).length = 8 := rfl

theorem bitsOfByte_getElem (c : Byte) {j : Nat} (h : j < (bitsOfByte c).length) : (bitsOfByte c)[j] = c.getLsbD j := by
  have hj : j < 8 := by simpa using h
  interval_cases j <;> rfl

/-- Unpacking a code byte gives its group's bits back. -/
theorem bitsOfByte_codeByte {bs : List Bool} (h8 : bs.length = 8) : bitsOfByte (codeByte bs) = bs := by
  refine List.ext_getElem (by simp [h8]) fun j h1 h2 => ?_
  rw [bitsOfByte_getElem, codeByte_getLsbD h8 h2]

@[simp] theorem dinSamples_length (s : State) : s.dinSamples.length = 8 := rfl

/-- Lane `j` of DIN stands in DIN_LO for `j < 4` and in DIN_HI above (R57). -/
theorem laneOf_din (s : State) {j : Nat} (h : j < 8) :
    laneOf s.din j =
      if j < 4 then s.dinLo.extractLsb' (8 * j) 8 else s.dinHi.extractLsb' (8 * (j - 4)) 8 := by
  refine BitVec.eq_of_getLsbD_eq fun i hi => ?_
  simp only [laneOf, State.din, BitVec.getLsbD_extractLsb', BitVec.getLsbD_append]
  split
  · rw [if_pos (by omega)]; simp
  · rw [if_neg (by omega)]
    simp only [hi, decide_true, Bool.true_and, BitVec.getLsbD_extractLsb']
    congr 1; omega

/-- Lane `j` of a 64-bit result stands in its low word for `j < 4` and in its high word above (R57). -/
theorem laneOf_words (d : DWord) {j : Nat} (h : j < 8) :
    laneOf d j =
      if j < 4 then (d.extractLsb' 0 32).extractLsb' (8 * j) 8
      else (d.extractLsb' 32 32).extractLsb' (8 * (j - 4)) 8 := by
  refine BitVec.eq_of_getLsbD_eq fun i hi => ?_
  split <;> simp only [laneOf, BitVec.getLsbD_extractLsb']
  · have : 8 * j + i < 32 := by omega
    simp [this]
  · have h1 : 8 * (j - 4) + i < 32 := by omega
    have h2 : 32 + (8 * (j - 4) + i) = 8 * j + i := by omega
    simp [h1, h2]

theorem dinSamples_getElem (s : State) {j : Nat} (h : j < s.dinSamples.length) :
    s.dinSamples[j] = (laneOf s.din j).toInt := by
  have hj : j < 8 := by simpa using h
  interval_cases j <;> rfl

@[simp] theorem dinBits_length (s : State) : s.dinBits.length = 8 := rfl

theorem dinBits_getElem (s : State) {j : Nat} (h : j < s.dinBits.length) : s.dinBits[j] = s.dinLo.getLsbD j := by
  have hj : j < 8 := by simpa using h
  have := bitsOfByte_getElem (s.dinLo.extractLsb' 0 8) (j := j) (by simpa using hj)
  rw [BitVec.getLsbD_extractLsb'] at this
  simpa [State.dinBits, hj] using this

/-- ENC8's result in DOUT_LO: the code byte, bits 31:8 zero (R82). -/
theorem doutOfCode_lo (c : Byte) : (doutOfCode c).extractLsb' 0 32 = c.setWidth 32 := by
  refine BitVec.eq_of_getLsbD_eq fun i hi => ?_
  have : i < 64 := by omega
  simp [doutOfCode, hi, this]

/-- ENC8's result in DOUT_HI: zero (R82). -/
theorem doutOfCode_hi (c : Byte) : (doutOfCode c).extractLsb' 32 32 = 0#32 := by
  refine BitVec.eq_of_getLsbD_eq fun i hi => ?_
  have : c.getLsbD (32 + i) = false := BitVec.getLsbD_of_ge _ _ (by omega)
  simp [doutOfCode, this]

theorem packLanes_div (ys : List Byte) {j : Nat} (h : j < ys.length) :
    packLanes ys / 256 ^ j % 256 = ys[j].toNat := by
  induction ys generalizing j with
  | nil => simp at h
  | cons y ys ih =>
    have hy := y.isLt
    cases j with
    | zero => simp only [packLanes, Nat.pow_zero, Nat.div_one, List.getElem_cons_zero]; omega
    | succ j =>
      have hd : (y.toNat + 256 * packLanes ys) / 256 = packLanes ys := by omega
      rw [Nat.pow_succ, Nat.mul_comm, ← Nat.div_div_eq_div_mul, packLanes, hd]
      exact ih (by simpa using h)

/-- Lane `j` of DEC8's result is sample byte `j` (R82). -/
theorem doutOfSamples_lane {ys : List Byte} {j : Nat} (h8 : j < 8) (h : j < ys.length) :
    laneOf (doutOfSamples ys) j = ys[j] := by
  apply BitVec.eq_of_toNat_eq
  rw [← packLanes_div ys h]
  simp only [laneOf, doutOfSamples, BitVec.extractLsb'_toNat, BitVec.toNat_ofNat, Nat.shiftRight_eq_div_pow]
  interval_cases j <;> simp only [Nat.reduceMul, Nat.reducePow] <;> omega

/-! ## The buffer loops -/

theorem State.loadBytes_append (s : State) (a m n : Nat) :
    s.loadBytes a (m + n) = s.loadBytes a m ++ s.loadBytes (a + m) n := by
  induction m generalizing a with
  | zero => simp [State.loadBytes]
  | succ m ih =>
    rw [show m + 1 + n = (m + n) + 1 by omega]
    simp only [State.loadBytes, ih, List.cons_append]
    rw [show a + 1 + m = a + (m + 1) by omega]

theorem State.loadBytes_congr {s u : State} {a n : Nat}
    (h : ∀ k < n, s.mem.read (a + k) = u.mem.read (a + k)) : s.loadBytes a n = u.loadBytes a n := by
  refine List.ext_getElem (by simp) fun j h1 h2 => ?_
  simp only [State.loadBytes_getElem]
  exact h j (by simpa using h1)

@[simp] theorem loadSamples_length (s : State) (a n : Nat) : (s.loadSamples a n).length = n := by
  simp [State.loadSamples]

theorem loadSamples_getElem (s : State) (a n : Nat) {j : Nat} (h : j < (s.loadSamples a n).length) :
    (s.loadSamples a n)[j] = (s.mem.read (a + j)).toInt := by
  simp [State.loadSamples, sampleOf]

/-- The encode loop splits at any group. -/
theorem encodeGroups_add (k m inA outA : Nat) (s : State) :
    encodeGroups (k + m) inA outA s = encodeGroups m (inA + 8 * k) (outA + k) (encodeGroups k inA outA s) := by
  induction k generalizing inA outA s with
  | zero => simp [encodeGroups]
  | succ k ih =>
    rw [show k + 1 + m = (k + m) + 1 by omega, encodeGroups, encodeGroups, ih]
    congr 1 <;> omega

/-- The encode loop writes the context and memory, and nothing else. -/
theorem encodeGroups_eq (k inA outA : Nat) (s : State) :
    encodeGroups k inA outA s =
      { s with ctx := (encodeGroups k inA outA s).ctx, mem := (encodeGroups k inA outA s).mem } := by
  induction k generalizing inA outA s with
  | zero => rfl
  | succ k ih => rw [encodeGroups, ih]; rfl

theorem encodeGroups_wf {s : State} (h : s.mem.wf) (k inA outA : Nat) : (encodeGroups k inA outA s).mem.wf := by
  induction k generalizing inA outA s with
  | zero => exact h
  | succ k ih => exact ih (Memory.wf_write h _ _) _ _

theorem encodeGroups_inSpace {s : State} (h : s.mem.inSpace) {k inA outA : Nat} (ha : outA + k ≤ Config.memTop) :
    (encodeGroups k inA outA s).mem.inSpace := by
  induction k generalizing inA outA s with
  | zero => exact h
  | succ k ih => exact ih (Memory.inSpace_write h (by omega) _) (by omega)

/-- A property that every ADVANCE keeps is kept by the encode loop. -/
theorem encodeGroups_keeps {P : Context → Prop} (h : ∀ b c, P c → P (advance b c)) (k inA outA : Nat) {s : State}
    (hc : P s.ctx) : P (encodeGroups k inA outA s).ctx := by
  induction k generalizing inA outA s with
  | zero => exact hc
  | succ k ih => exact ih _ _ (encodeContext_keeps h _ hc)

/-- What the encode loop does when its ranges are disjoint: the context runs over all samples, code byte `g` packs
bits `8g` to `8g+7`, and every other byte is unchanged. -/
theorem encodeGroups_spec {s : State} (hwf : s.mem.wf) (k inA outA : Nat)
    (hd : ∀ x, inA ≤ x → x < inA + 8 * k → outA ≤ x → x < outA + k → False) :
    (encodeGroups k inA outA s).ctx = encodeContext (s.loadSamples inA (8 * k)) s.ctx ∧
    (∀ g < k, (encodeGroups k inA outA s).mem.read (outA + g) =
      codeByte (((encodeBits (s.loadSamples inA (8 * k)) s.ctx).drop (8 * g)).take 8)) ∧
    (∀ a, (a < outA ∨ outA + k ≤ a) → (encodeGroups k inA outA s).mem.read a = s.mem.read a) := by
  induction k generalizing inA outA s with
  | zero => exact ⟨rfl, by simp, fun _ _ => rfl⟩
  | succ k ih =>
    have hwf' : (encodeGroupStep inA outA s).mem.wf := Memory.wf_write hwf _ _
    obtain ⟨h1, h2, h3⟩ := ih hwf' (inA + 8) (outA + 1) fun x a b c d =>
      hd x (by omega) (by omega) (by omega) (by omega)
    have hread : ∀ b, (encodeGroupStep inA outA s).mem.read b =
        if b = outA then encodeGroup (s.loadSamples inA 8) s.ctx else s.mem.read b :=
      fun b => Memory.read_write hwf _ _ b
    have hload : (encodeGroupStep inA outA s).loadSamples (inA + 8) (8 * k) = s.loadSamples (inA + 8) (8 * k) := by
      unfold State.loadSamples
      rw [State.loadBytes_congr fun j hj => ?_]
      rw [hread, if_neg]
      intro he
      exact hd (inA + 8 + j) (by omega) (by omega) (by omega) (by omega)
    have hsplit : s.loadSamples inA (8 * (k + 1)) = s.loadSamples inA 8 ++ s.loadSamples (inA + 8) (8 * k) := by
      simp only [State.loadSamples, show 8 * (k + 1) = 8 + 8 * k by omega, State.loadBytes_append, List.map_append]
    have hctx : (encodeGroupStep inA outA s).ctx = encodeContext (s.loadSamples inA 8) s.ctx := rfl
    rw [hload, hctx] at h1 h2
    have hlen : (encodeBits (s.loadSamples inA 8) s.ctx).length = 8 := by simp
    refine ⟨?_, fun g hg => ?_, fun a ha => ?_⟩
    · rw [hsplit, encodeContext_append]; exact h1
    · rw [hsplit, encodeBits_append]
      cases g with
      | zero =>
        rw [encodeGroups, h3 _ (.inl (by omega)), hread, if_pos (by omega), encodeGroup, Nat.mul_zero, List.drop_zero,
          List.take_append_of_le_length (by omega), List.take_of_length_le (by omega)]
      | succ g =>
        have := h2 g (by omega)
        rw [show outA + 1 + g = outA + (g + 1) by omega] at this
        rw [encodeGroups, this, List.drop_append, hlen, show 8 * (g + 1) - 8 = 8 * g by omega,
          List.drop_of_length_le (l := encodeBits (s.loadSamples inA 8) s.ctx) (by omega), List.nil_append]
    · rw [encodeGroups, h3 a (by omega), hread, if_neg (by omega)]

/-- The decode loop splits at any code byte. -/
theorem decodeBytes_add (k m inA outA : Nat) (s : State) :
    decodeBytes (k + m) inA outA s = decodeBytes m (inA + k) (outA + 8 * k) (decodeBytes k inA outA s) := by
  induction k generalizing inA outA s with
  | zero => simp [decodeBytes]
  | succ k ih =>
    rw [show k + 1 + m = (k + m) + 1 by omega, decodeBytes, decodeBytes, ih]
    congr 1 <;> omega

/-- Two changes of context and memory alone make one. -/
theorem State.frame_trans {s u t : State} (h : u = { s with ctx := u.ctx, mem := u.mem })
    (h' : t = { u with ctx := t.ctx, mem := t.mem }) : t = { s with ctx := t.ctx, mem := t.mem } := by
  cases s; cases u; cases t; simp_all

/-- One code byte's decoding writes the context and memory, and nothing else. -/
theorem decodeByteStep_eq (inA outA : Nat) (s : State) :
    decodeByteStep inA outA s =
      { s with ctx := (decodeByteStep inA outA s).ctx, mem := (decodeByteStep inA outA s).mem } := by
  unfold decodeByteStep
  generalize decodeSamples (bitsOfByte (s.loadByte inA)) s.ctx = ys
  generalize decodeContext (bitsOfByte (s.loadByte inA)) s.ctx = c
  exact State.frame_trans (u := s.setCtx c) rfl (by rw [State.storeBytes_eq])

@[simp] theorem decodeByteStep_ctx (inA outA : Nat) (s : State) :
    (decodeByteStep inA outA s).ctx = decodeContext (bitsOfByte (s.loadByte inA)) s.ctx := by
  unfold decodeByteStep
  generalize decodeSamples (bitsOfByte (s.loadByte inA)) s.ctx = ys
  generalize decodeContext (bitsOfByte (s.loadByte inA)) s.ctx = c
  rw [State.storeBytes_eq, State.setCtx_ctx]

theorem decodeByteStep_wf {s : State} (h : s.mem.wf) (inA outA : Nat) : (decodeByteStep inA outA s).mem.wf := by
  unfold decodeByteStep
  generalize decodeSamples (bitsOfByte (s.loadByte inA)) s.ctx = ys
  generalize decodeContext (bitsOfByte (s.loadByte inA)) s.ctx = c
  exact State.storeBytes_wf (s := s.setCtx c) h outA ys

theorem decodeByteStep_inSpace {s : State} (h : s.mem.inSpace) {inA outA : Nat} (ha : outA + 8 ≤ Config.memTop) :
    (decodeByteStep inA outA s).mem.inSpace := by
  unfold decodeByteStep
  have hl : (decodeSamples (bitsOfByte (s.loadByte inA)) s.ctx).length = 8 := by rw [decodeSamples_length]; rfl
  generalize decodeSamples (bitsOfByte (s.loadByte inA)) s.ctx = ys at hl
  generalize decodeContext (bitsOfByte (s.loadByte inA)) s.ctx = c
  exact State.storeBytes_inSpace (s := s.setCtx c) h (by omega)

/-- Memory after storing eight bytes beside another context. -/
theorem State.setCtx_storeBytes_read {s : State} (hwf : s.mem.wf) (c : Context) (a b : Nat) {ys : List Byte}
    (hl : ys.length = 8) :
    ((s.setCtx c).storeBytes a ys).mem.read b =
      if h : a ≤ b ∧ b - a < 8 then ys[b - a]'(hl ▸ h.2) else s.mem.read b := by
  rw [State.storeBytes_read (s := s.setCtx c) hwf]
  simp only [hl, State.setCtx_mem]

/-- Memory after one code byte's decoding: its eight sample bytes, and every other byte unchanged. -/
theorem decodeByteStep_read {s : State} (hwf : s.mem.wf) (inA outA b : Nat) :
    (decodeByteStep inA outA s).mem.read b =
      if h : outA ≤ b ∧ b - outA < 8 then
        (decodeSamples (bitsOfByte (s.loadByte inA)) s.ctx)[b - outA]'
          (by rw [decodeSamples_length, bitsOfByte_length]; exact h.2)
      else s.mem.read b := by
  unfold decodeByteStep
  exact State.setCtx_storeBytes_read hwf _ outA b (by rw [decodeSamples_length, bitsOfByte_length])

/-- The decode loop writes the context and memory, and nothing else. -/
theorem decodeBytes_eq (k inA outA : Nat) (s : State) :
    decodeBytes k inA outA s =
      { s with ctx := (decodeBytes k inA outA s).ctx, mem := (decodeBytes k inA outA s).mem } := by
  induction k generalizing inA outA s with
  | zero => rfl
  | succ k ih => exact State.frame_trans (decodeByteStep_eq inA outA s) (ih _ _ _)

theorem decodeBytes_wf {s : State} (h : s.mem.wf) (k inA outA : Nat) : (decodeBytes k inA outA s).mem.wf := by
  induction k generalizing inA outA s with
  | zero => exact h
  | succ k ih => exact ih (decodeByteStep_wf h _ _) _ _

theorem decodeBytes_inSpace {s : State} (h : s.mem.inSpace) {k inA outA : Nat}
    (ha : outA + 8 * k ≤ Config.memTop) : (decodeBytes k inA outA s).mem.inSpace := by
  induction k generalizing inA outA s with
  | zero => exact h
  | succ k ih => exact ih (decodeByteStep_inSpace h (by omega)) (by omega)

/-- A property that every DECSTEP keeps is kept by the decode loop. -/
theorem decodeBytes_keeps {P : Context → Prop} (h : ∀ b c, P c → P (decodeNext b c)) (k inA outA : Nat) {s : State}
    (hc : P s.ctx) : P (decodeBytes k inA outA s).ctx := by
  induction k generalizing inA outA s with
  | zero => exact hc
  | succ k ih =>
    refine ih _ _ ?_
    rw [decodeByteStep_ctx]
    exact decodeContext_keeps h _ hc

/-- The bits that `n` code bytes from a host address hold, in bitstream order. -/
def State.loadBits (s : State) (a n : Nat) : List Bool :=
  (s.loadBytes a n).flatMap bitsOfByte

@[simp] theorem loadBits_length (s : State) (a n : Nat) : (s.loadBits a n).length = 8 * n := by
  simp [State.loadBits, List.length_flatMap, Nat.mul_comm]

/-- What the decode loop does when its ranges are disjoint: the context runs over all bits, output byte `j` is the
byte of DECSTEP `j`, and every other byte is unchanged. -/
theorem decodeBytes_spec {s : State} (hwf : s.mem.wf) (k inA outA : Nat)
    (hd : ∀ x, inA ≤ x → x < inA + k → outA ≤ x → x < outA + 8 * k → False) :
    (decodeBytes k inA outA s).ctx = decodeContext (s.loadBits inA k) s.ctx ∧
    (∀ j (h : j < 8 * k), (decodeBytes k inA outA s).mem.read (outA + j) =
      (decodeSamples (s.loadBits inA k) s.ctx)[j]'(by simpa using h)) ∧
    (∀ a, (a < outA ∨ outA + 8 * k ≤ a) → (decodeBytes k inA outA s).mem.read a = s.mem.read a) := by
  induction k generalizing inA outA s with
  | zero => exact ⟨rfl, by simp, fun _ _ => rfl⟩
  | succ k ih =>
    obtain ⟨h1, h2, h3⟩ := ih (decodeByteStep_wf hwf inA outA) (inA + 1) (outA + 8) fun x a b c d =>
      hd x (by omega) (by omega) (by omega) (by omega)
    have hread := decodeByteStep_read hwf inA outA
    have hload : (decodeByteStep inA outA s).loadBits (inA + 1) k = s.loadBits (inA + 1) k := by
      unfold State.loadBits
      rw [State.loadBytes_congr fun j hj => ?_]
      rw [hread, dif_neg]
      intro he
      exact hd (inA + 1 + j) (by omega) (by omega) (by omega) (by omega)
    have hsplit : s.loadBits inA (k + 1) = bitsOfByte (s.loadByte inA) ++ s.loadBits (inA + 1) k := by
      simp [State.loadBits, State.loadBytes]
    rw [hload, decodeByteStep_ctx] at h1
    simp only [hload, decodeByteStep_ctx] at h2
    refine ⟨?_, fun j hj => ?_, fun a ha => ?_⟩
    · rw [hsplit, decodeContext_append]; exact h1
    · simp only [hsplit, decodeSamples_append]
      by_cases hj8 : j < 8
      · rw [List.getElem_append_left (by simpa using hj8), decodeBytes, h3 _ (.inl (by omega)), hread,
          dif_pos (by omega)]
        simp
      · rw [List.getElem_append_right (by simpa using hj8), decodeBytes]
        have := h2 (j - 8) (by omega)
        rw [show outA + 8 + (j - 8) = outA + j by omega] at this
        rw [this]
        simp
    · rw [decodeBytes, h3 a (by omega), hread, dif_neg (by omega)]

/-- Bit `8g + k` of the code bytes at a host address is bit `k` of byte `g`. -/
theorem loadBits_getElem (s : State) (a n : Nat) {g k : Nat} (hg : g < n) (hk : k < 8) :
    (s.loadBits a n)[8 * g + k]'(by simp; omega) = (s.mem.read (a + g)).getLsbD k := by
  induction n generalizing a g with
  | zero => omega
  | succ n ih =>
    have hsplit : s.loadBits a (n + 1) = bitsOfByte (s.loadByte a) ++ s.loadBits (a + 1) n := by
      simp [State.loadBits, State.loadBytes]
    simp only [hsplit]
    cases g with
    | zero =>
      rw [List.getElem_append_left (by simp; omega), bitsOfByte_getElem]
      simp [State.loadByte]
    | succ g =>
      rw [List.getElem_append_right (by simp; omega)]
      have := ih (a + 1) (g := g) (by omega)
      simp only [bitsOfByte_length, show 8 * (g + 1) + k - 8 = 8 * g + k by omega]
      rw [this]
      congr 2
      omega

/-! ## The trace of a run of steps -/

/-- The contexts and bits of a run of ENCSTEPs, as two sequences. -/
theorem encodeContext_trace (xs : List Int) (c₀ : Context) :
    ∃ (c : Nat → Context) (b : Nat → Bool), c 0 = c₀ ∧
      (∀ (j) (h : j < xs.length), b j = encodeBit xs[j] (c j) ∧ c (j + 1) = advance (b j) (c j)) ∧
      c xs.length = encodeContext xs c₀ ∧
      ∀ (j) (h : j < xs.length), b j = (encodeBits xs c₀)[j]'(by simpa using h) := by
  refine ⟨fun j => encodeContext (xs.take j) c₀,
    fun j => if h : j < xs.length then encodeBit xs[j] (encodeContext (xs.take j) c₀) else false, rfl,
    fun j h => ?_, by simp, fun j h => ?_⟩
  · simp only [h, dite_true]
    refine ⟨trivial, ?_⟩
    rw [encodeContext_take_succ _ _ h]
    rfl
  · simp only [h, dite_true]
    rw [encodeBits_getElem _ _ h]

/-- The contexts of a run of DECSTEPs, as a sequence. -/
theorem decodeContext_trace (bs : List Bool) (c₀ : Context) :
    ∃ c : Nat → Context, c 0 = c₀ ∧
      (∀ (j) (h : j < bs.length), c (j + 1) = decodeNext bs[j] (c j)) ∧
      c bs.length = decodeContext bs c₀ ∧
      ∀ (j) (h : j < bs.length),
        (decodeSamples bs c₀)[j]'(by simpa using h) = BitVec.ofInt 8 (c (j + 1)).lowPassLevel := by
  refine ⟨fun j => decodeContext (bs.take j) c₀, rfl, fun j h => decodeContext_take_succ _ _ h, by simp,
    fun j h => ?_⟩
  show _ = BitVec.ofInt 8 (decodeContext (bs.take (j + 1)) c₀).lowPassLevel
  rw [decodeSamples_getElem _ _ h, decodeContext_take_succ _ _ h]
  rfl

/-! ## The loops depend on the context and memory alone -/

theorem State.storeBytes_congr {s u : State} (a : Nat) (vs : List Byte) (h : s.mem = u.mem) :
    (s.storeBytes a vs).mem = (u.storeBytes a vs).mem := by
  induction vs generalizing a s u with
  | nil => exact h
  | cons v vs ih => exact ih _ (by simp only [State.storeByte_mem, h])

theorem encodeGroups_congr (k inA outA : Nat) {s u : State} (hc : s.ctx = u.ctx) (hm : s.mem = u.mem) :
    (encodeGroups k inA outA s).ctx = (encodeGroups k inA outA u).ctx ∧
      (encodeGroups k inA outA s).mem = (encodeGroups k inA outA u).mem := by
  induction k generalizing inA outA s u with
  | zero => exact ⟨hc, hm⟩
  | succ k ih =>
    have hl : s.loadSamples inA 8 = u.loadSamples inA 8 := by
      unfold State.loadSamples
      rw [State.loadBytes_congr (u := u) fun _ _ => by rw [hm]]
    refine ih _ _ ?_ ?_
    · simp only [encodeGroupStep, State.storeByte_ctx, State.setCtx_ctx, hl, hc]
    · simp only [encodeGroupStep, State.storeByte_mem, State.setCtx_mem, hl, hc, hm]

theorem decodeBytes_congr (k inA outA : Nat) {s u : State} (hc : s.ctx = u.ctx) (hm : s.mem = u.mem) :
    (decodeBytes k inA outA s).ctx = (decodeBytes k inA outA u).ctx ∧
      (decodeBytes k inA outA s).mem = (decodeBytes k inA outA u).mem := by
  induction k generalizing inA outA s u with
  | zero => exact ⟨hc, hm⟩
  | succ k ih =>
    have hl : s.loadByte inA = u.loadByte inA := by
      unfold State.loadByte
      rw [hm]
    refine ih _ _ ?_ ?_
    · rw [decodeByteStep_ctx, decodeByteStep_ctx, hl, hc]
    · unfold decodeByteStep
      rw [hl, hc]
      generalize decodeSamples _ _ = ys
      generalize decodeContext _ _ = c
      exact State.storeBytes_congr _ _ (by simpa using hm)

end Sys2Proof.Machine
end

