-- ==== Sys2Proof/Laws/CommandWord.lean ====
section
/-! SUPPORT. A command word and its three fields (30_encoding.md R72) determine each other. -/

namespace Sys2Proof

/-- Splitting a word and joining the fields gives the word back. -/
theorem CommandFields.toWord_ofWord (w : Word) : (CommandFields.ofWord w).toWord = w := by
  apply BitVec.eq_of_getLsbD_eq
  intro i hi
  simp only [CommandFields.ofWord, CommandFields.toWord, BitVec.getLsbD_append, BitVec.getLsbD_extractLsb']
  by_cases h1 : i < 5
  · by_cases h2 : i < 4
    · simp [h1, h2]
    · obtain rfl : i = 4 := by omega
      simp
  · rw [if_neg (by omega), show 5 + (i - (1 + 4)) = i by omega]
    simp; omega

/-- Joining fields and splitting the word gives the fields back. -/
theorem CommandFields.ofWord_toWord (f : CommandFields) : CommandFields.ofWord f.toWord = f := by
  obtain ⟨op, v, r⟩ := f
  simp only [CommandFields.ofWord, CommandFields.toWord, CommandFields.mk.injEq]
  refine ⟨?_, ?_, ?_⟩ <;> apply BitVec.eq_of_getLsbD_eq <;> intro i hi <;>
    simp only [BitVec.getLsbD_append, BitVec.getLsbD_extractLsb']
  · simp [hi]
    try (intro h; omega)
  · simp [hi]
    obtain rfl : i = 0 := by omega
    simp
  · simp [hi]

/-- The fields as numbers: RSVD is the word divided by 32, OP its remainder by 16, V the bit between. -/
theorem CommandFields.ofWord_toNat (w : Word) :
    (CommandFields.ofWord w).rsvd.toNat = w.toNat / 32 ∧ (CommandFields.ofWord w).op.toNat = w.toNat % 16 ∧
      (CommandFields.ofWord w).v.toNat = w.toNat / 16 % 2 := by
  have := w.isLt
  simp [CommandFields.ofWord, BitVec.extractLsb'_toNat, Nat.shiftRight_eq_div_pow]
  omega

end Sys2Proof
end

