-- ==== Sys2Proof/Laws/PerInstr.lean ====
section
/-! SUPPORT. The per-instruction family `Command`: every instruction is well formed and decodes from its own word. -/

namespace Sys2Proof.Laws.Command

/-- The instruction is well formed, its word's fields are legal, and the decoder reads it back from that word (R73,
R75, R76). -/
def Statement (i : Instr) : Prop :=
  i.wellFormed = true ∧ (encodeFields i).wellFormed = true ∧ decode (encode i) = .ok i

theorem init (variant : Variant) : Statement (.init variant) := by
  cases variant <;> exact ⟨rfl, rfl, by decide⟩

theorem enc8 : Statement .enc8 := ⟨rfl, rfl, by decide⟩

theorem dec8 : Statement .dec8 := ⟨rfl, rfl, by decide⟩

theorem encb : Statement .encb := ⟨rfl, rfl, by decide⟩

theorem decb : Statement .decb := ⟨rfl, rfl, by decide⟩

end Sys2Proof.Laws.Command
end

