-- ==== Sys2Proof/Laws/Program.lean ====
section
/-! SUPPORT. The memory that MEM statements set up (30_encoding.md R87): what it reads as, and that it keeps the canonical
form and the address space. -/

namespace Sys2Proof.Machine

theorem Memory.writeBytes_wf {m : Memory} (h : m.wf) (a : Nat) (vs : List Byte) : (m.writeBytes a vs).wf := by
  induction vs generalizing m a with
  | nil => exact h
  | cons v vs ih => exact ih (Memory.wf_write h a v) _

theorem Memory.writeBytes_inSpace {m : Memory} (h : m.inSpace) {a : Nat} {vs : List Byte}
    (ha : ∀ i < vs.length, a + i < Config.memTop) : (m.writeBytes a vs).inSpace := by
  induction vs generalizing m a with
  | nil => exact h
  | cons v vs ih =>
    refine ih (Memory.inSpace_write h (ha 0 (by simp)) v) fun i hi => ?_
    have := ha (i + 1) (by simpa using hi)
    omega

/-- The bytes written read back, and every other byte is as it was. -/
theorem Memory.writeBytes_read {m : Memory} (h : m.wf) (a : Nat) (vs : List Byte) (b : Nat) :
    (m.writeBytes a vs).read b =
      if hb : a ≤ b ∧ b < a + vs.length then vs[b - a]'(by omega) else m.read b := by
  induction vs generalizing m a with
  | nil => simp [Memory.writeBytes]
  | cons v vs ih =>
    rw [Memory.writeBytes, ih (Memory.wf_write h a v), Memory.read_write h]
    simp only [List.length_cons]
    by_cases hb : b = a
    · subst hb
      simp
    · by_cases hr : a + 1 ≤ b ∧ b < a + 1 + vs.length
      · have e : b - a = (b - (a + 1)) + 1 := by omega
        rw [dif_pos hr, dif_pos (by omega)]
        simp [e]
      · rw [dif_neg hr, if_neg hb, dif_neg (by omega)]

/-- The bytes a MEM statement names. -/
theorem mem_namedBytes (a b : Nat) (bytes : List Byte) :
    b ∈ (HostStatement.mem a bytes).namedBytes ↔ a ≤ b ∧ b < a + bytes.length := by
  simp only [HostStatement.namedBytes, List.mem_map, List.mem_range]
  constructor
  · rintro ⟨i, hi, rfl⟩
    omega
  · rintro ⟨h1, h2⟩
    exact ⟨b - a, by omega, by omega⟩

/-- One statement's part of a program's memory. -/
def HostStatement.applyMem : HostStatement → Memory → Memory
  | .mem a bytes, m => m.writeBytes a bytes
  | _, m => m

theorem programMemory_cons (st : HostStatement) (program : List HostStatement) (m : Memory) :
    programMemory (st :: program) m = programMemory program (st.applyMem m) := by
  cases st <;> rfl

theorem programMemory_append (p q : List HostStatement) (m : Memory) :
    programMemory (p ++ q) m = programMemory q (programMemory p m) := by
  induction p generalizing m with
  | nil => rfl
  | cons st p ih => rw [List.cons_append, programMemory_cons, programMemory_cons, ih]

theorem HostStatement.applyMem_wf {m : Memory} (h : m.wf) (st : HostStatement) : (st.applyMem m).wf := by
  cases st with
  | mem a bytes => exact Memory.writeBytes_wf h a bytes
  | _ => exact h

/-- A statement leaves the bytes it does not name. -/
theorem HostStatement.applyMem_read {m : Memory} (h : m.wf) {st : HostStatement} {b : Nat} (hb : b ∉ st.namedBytes) :
    (st.applyMem m).read b = m.read b := by
  cases st with
  | mem a bytes =>
    rw [mem_namedBytes] at hb
    rw [HostStatement.applyMem, Memory.writeBytes_read h, dif_neg hb]
  | _ => rfl

theorem programMemory_wf {m : Memory} (h : m.wf) (program : List HostStatement) : (programMemory program m).wf := by
  induction program generalizing m with
  | nil => exact h
  | cons st program ih => rw [programMemory_cons]; exact ih (st.applyMem_wf h)

/-- A program's MEM statements leave the bytes they do not name. -/
theorem programMemory_read {m : Memory} (h : m.wf) {program : List HostStatement} {b : Nat}
    (hb : b ∉ program.flatMap HostStatement.namedBytes) : (programMemory program m).read b = m.read b := by
  induction program generalizing m with
  | nil => rfl
  | cons st program ih =>
    rw [List.flatMap_cons, List.mem_append, not_or] at hb
    rw [programMemory_cons, ih (st.applyMem_wf h) hb.2, HostStatement.applyMem_read h hb.1]

theorem programMemory_inSpace {m : Memory} (h : m.inSpace) {program : List HostStatement}
    (hb : ∀ b ∈ program.flatMap HostStatement.namedBytes, b < Config.memTop) : (programMemory program m).inSpace := by
  induction program generalizing m with
  | nil => exact h
  | cons st program ih =>
    rw [programMemory_cons]
    refine ih ?_ fun b hm => hb b (by rw [List.flatMap_cons, List.mem_append]; exact .inr hm)
    cases st with
    | mem a bytes =>
      refine Memory.writeBytes_inSpace h fun i hi => hb (a + i) ?_
      rw [List.flatMap_cons, List.mem_append, mem_namedBytes]
      exact .inl (by omega)
    | _ => exact h

end Sys2Proof.Machine
end

