-- ==== Sys2Proof/Laws/Steps.lean ====
section
/-! SUPPORT. Inversion of `exec`, `runCommand` and `step`: everything a next state can be, said once. -/

namespace Sys2Proof.Machine

/-- A command changes at most the context, STATUS, DOUT, host memory and the record of its users. -/
theorem exec_frame {i : Instr} {s t : State} (h : exec i s = .next t) :
    t = { s with
      ctx := t.ctx, status := t.status, doutLo := t.doutLo, doutHi := t.doutHi, mem := t.mem, users := t.users } := by
  cases i with
  | init v => rw [execInit_next] at h; cases h; rfl
  | enc8 =>
    rcases execEnc8_next h with ⟨-, rfl⟩ | ⟨-, -, ht⟩
    · rfl
    · generalize encodeContext s.dinSamples s.ctx = c at ht
      generalize doutOfCode (encodeGroup s.dinSamples s.ctx) = d at ht
      subst ht; rfl
  | dec8 =>
    rcases execDec8_next h with ⟨-, rfl⟩ | ⟨-, -, ht⟩
    · rfl
    · generalize decodeContext s.dinBits s.ctx = c at ht
      generalize doutOfSamples (decodeSamples s.dinBits s.ctx) = d at ht
      subst ht; rfl
  | encb =>
    rcases execEncb_next h with ⟨k, c, -, rfl⟩ | ⟨-, ht⟩
    · rfl
    · rw [encodeGroups_eq] at ht
      generalize (encodeGroups s.encodeOut.toNat s.inAddr s.outAddr s).ctx = c at ht
      generalize (encodeGroups s.encodeOut.toNat s.inAddr s.outAddr s).mem = m at ht
      subst ht; rfl
  | decb =>
    rcases execDecb_next h with ⟨k, c, -, rfl⟩ | ⟨-, ht⟩
    · rfl
    · rw [decodeBytes_eq] at ht
      generalize (decodeBytes s.decodeIn.toNat s.inAddr s.outAddr s).ctx = c at ht
      generalize (decodeBytes s.decodeIn.toNat s.inAddr s.outAddr s).mem = m at ht
      subst ht; rfl

/-- A command that answers a next state was rejected and wrote STATUS alone, or was accepted with STATUS OK. -/
theorem exec_status {i : Instr} {s t : State} (h : exec i s = .next t) :
    (∃ k c, (k = .noContext ∧ c = .none ∨ k = .invalidArgument ∧ c ≠ .none) ∧ t = s.raise k c) ∨
    t.status = Status.reset := by
  cases i with
  | init v => rw [execInit_next] at h; cases h; exact .inr rfl
  | enc8 =>
    rcases execEnc8_next h with ⟨-, ht⟩ | ⟨-, -, ht⟩
    · exact .inl ⟨.noContext, .none, .inl ⟨rfl, rfl⟩, ht⟩
    · rw [ht]; exact .inr (State.accept_status _)
  | dec8 =>
    rcases execDec8_next h with ⟨-, ht⟩ | ⟨-, -, ht⟩
    · exact .inl ⟨.noContext, .none, .inl ⟨rfl, rfl⟩, ht⟩
    · rw [ht]; exact .inr (State.accept_status _)
  | encb =>
    rcases execEncb_next h with h | ⟨-, ht⟩
    · exact .inl h
    · rw [ht]; exact .inr (State.accept_status _)
  | decb =>
    rcases execDecb_next h with h | ⟨-, ht⟩
    · exact .inl h
    · rw [ht]; exact .inr (State.accept_status _)

/-- A property of contexts that a fresh context has and that ADVANCE and DECSTEP keep is kept by every command. -/
theorem exec_context_keeps {P : Context → Prop} {i : Instr} {s t : State} (h : exec i s = .next t)
    (hinit : ∀ v, i = .init v → P (Context.fresh v)) (hadv : ∀ b c, P c → P (advance b c))
    (hdec : ∀ b c, P c → P (decodeNext b c)) (hs : P s.ctx) : P t.ctx := by
  cases i with
  | init v => rw [execInit_next] at h; cases h; exact hinit v rfl
  | enc8 =>
    rcases execEnc8_next h with ⟨-, rfl⟩ | ⟨-, -, ht⟩
    · exact hs
    · rw [ht, State.accept_ctx, State.setDout_ctx, State.setCtx_ctx]
      exact encodeContext_keeps hadv _ hs
  | dec8 =>
    rcases execDec8_next h with ⟨-, rfl⟩ | ⟨-, -, ht⟩
    · exact hs
    · rw [ht, State.accept_ctx, State.setDout_ctx, State.setCtx_ctx]
      exact decodeContext_keeps hdec _ hs
  | encb =>
    rcases execEncb_next h with ⟨k, c, -, rfl⟩ | ⟨-, ht⟩
    · exact hs
    · rw [ht, State.accept_ctx]; exact encodeGroups_keeps hadv _ _ _ hs
  | decb =>
    rcases execDecb_next h with ⟨k, c, -, rfl⟩ | ⟨-, ht⟩
    · exact hs
    · rw [ht, State.accept_ctx]; exact decodeBytes_keeps hdec _ _ _ hs

/-- An accepted ENCB stores within the address space. -/
theorem encodeAccepted_space {s : State} (h : EncodeAccepted s) : s.outAddr + s.encodeOut.toNat ≤ Config.memTop := by
  obtain ⟨-, hc, hi, ho, -⟩ := h
  have := ranges_in_space hi ho
  simp only [EncodeCountIllegal, not_or] at hc
  simp only [State.encodeOut, State.bufferOperands, Config.memTop, Config.addrWidth]
  omega

/-- An accepted DECB stores within the address space. -/
theorem decodeAccepted_space {s : State} (h : DecodeAccepted s) :
    s.outAddr + 8 * s.decodeIn.toNat ≤ Config.memTop := by
  obtain ⟨-, hc, hi, ho, -⟩ := h
  have := ranges_in_space hi ho
  simp only [DecodeCountIllegal] at hc
  simp only [State.decodeIn, State.bufferOperands, Config.memTop, Config.addrWidth]
  omega

/-- An accepted ENCB's ranges are disjoint, as the loop's addresses see them. -/
theorem encodeAccepted_disjoint {s : State} (h : EncodeAccepted s) (x : Nat) (h1 : s.inAddr ≤ x)
    (h2 : x < s.inAddr + 8 * s.encodeOut.toNat) (h3 : s.outAddr ≤ x) (h4 : x < s.outAddr + s.encodeOut.toNat) :
    False := by
  obtain ⟨-, hc, hi, ho, hov, -⟩ := h
  have := ranges_in_space hi ho
  simp only [EncodeCountIllegal, not_or] at hc
  simp only [State.encodeOut, State.bufferOperands] at h2 h4
  exact hov ⟨x, by simp only [InInputRange]; omega, by simp only [InOutputRange]; omega⟩

/-- An accepted DECB's ranges are disjoint, as the loop's addresses see them. -/
theorem decodeAccepted_disjoint {s : State} (h : DecodeAccepted s) (x : Nat) (h1 : s.inAddr ≤ x)
    (h2 : x < s.inAddr + s.decodeIn.toNat) (h3 : s.outAddr ≤ x) (h4 : x < s.outAddr + 8 * s.decodeIn.toNat) :
    False := by
  obtain ⟨-, hc, hi, ho, hov, -⟩ := h
  have := ranges_in_space hi ho
  simp only [DecodeCountIllegal] at hc
  simp only [State.decodeIn, State.bufferOperands] at h2 h4
  exact hov ⟨x, by simp only [InInputRange]; omega, by simp only [InOutputRange]; omega⟩

/-- A command keeps the canonical form of memory, and its address space. -/
theorem exec_memory {i : Instr} {s t : State} (h : exec i s = .next t) :
    (s.mem.wf → t.mem.wf) ∧ (s.mem.inSpace → t.mem.inSpace) := by
  cases i with
  | init v => rw [execInit_next] at h; cases h; exact ⟨id, id⟩
  | enc8 =>
    rcases execEnc8_next h with ⟨-, rfl⟩ | ⟨-, -, ht⟩
    · exact ⟨id, id⟩
    · rw [ht, State.accept_mem, State.setDout_mem, State.setCtx_mem]; exact ⟨id, id⟩
  | dec8 =>
    rcases execDec8_next h with ⟨-, rfl⟩ | ⟨-, -, ht⟩
    · exact ⟨id, id⟩
    · rw [ht, State.accept_mem, State.setDout_mem, State.setCtx_mem]; exact ⟨id, id⟩
  | encb =>
    rcases execEncb_next h with ⟨k, c, -, rfl⟩ | ⟨ha, ht⟩
    · exact ⟨id, id⟩
    · rw [ht, State.accept_mem]
      exact ⟨fun hw => encodeGroups_wf hw _ _ _, fun hw => encodeGroups_inSpace hw (encodeAccepted_space ha)⟩
  | decb =>
    rcases execDecb_next h with ⟨k, c, -, rfl⟩ | ⟨ha, ht⟩
    · exact ⟨id, id⟩
    · rw [ht, State.accept_mem]
      exact ⟨fun hw => decodeBytes_wf hw _ _ _, fun hw => decodeBytes_inSpace hw (decodeAccepted_space ha)⟩

/-- A legal word runs its operation. -/
theorem runCommand_ok {w : Word} {i : Instr} (h : decode w = .ok i) (s : State) : runCommand w s = exec i s := by
  simp [runCommand, commandOfWord, h]

/-- An illegal word is INVALID_COMMAND. -/
theorem runCommand_error {w : Word} {e : DecodeError} (h : decode w = .error e) (s : State) :
    runCommand w s = .next (s.raise .invalidCommand .none) := by
  simp [runCommand, commandOfWord, h]

/-- The state on which a step that writes `w` to CMD runs its command. -/
def State.commandState (s : State) (client : Client) (w : Word) (rest : List HostAction) : State :=
  { s with pending := rest, issuer := client, cmd := w }

/-- A legal register access is one of width 32 at a multiple of 4. -/
theorem accessLegal_iff (width : Nat) (offset : BitVec 8) :
    accessLegal width offset = true ↔ width = 32 ∧ offset.toNat % 4 = 0 := by
  simp [accessLegal]

/-- The register found at an offset stands at that offset. -/
theorem regAt_offset {offset : BitVec 8} {r : Reg} (h : regAt offset = some r) : r.offset = offset := by
  simpa using List.find?_some h

@[simp] theorem regAt_cmd : regAt 0x00#8 = some .cmd := by decide

/-- A write of CMD that nothing stands in the way of runs the command. -/
theorem step_writeCmd {s : State} {client : Client} {w : Word} {rest : List HostAction}
    (h : Awaits s (writeCmd client w) rest) : step s = runCommand w (s.commandState client w rest) := by
  rw [step_of_awaits h]
  simp only [perform, performWrite, (accessLegal_iff 32 0x00#8).mpr ⟨rfl, rfl⟩, State.setPending_status, h.2.2,
    regAt_cmd]
  rfl

/-- A read that nothing stands in the way of returns the register's value and changes nothing of the block. -/
theorem step_readReg {s : State} {client : Client} {offset : BitVec 8} {rest : List HostAction}
    (h : Awaits s (.readReg client 32 offset) rest) (h4 : offset.toNat % 4 = 0) :
    step s = .next { s with
      pending := rest, issuer := client, readLog := s.readLog ++ [readOffset s offset] } := by
  rw [step_of_awaits h]
  have hread : readOffset (s.setPending rest) offset = readOffset s offset := by
    unfold readOffset
    cases regAt offset with
    | none => rfl
    | some r => cases r <;> rfl
  simp only [perform, performRead, (accessLegal_iff 32 offset).mpr ⟨rfl, h4⟩, State.setPending_status, h.2.2, hread]
  rfl

/-- A write of a register other than CMD changes none of the context, STATUS, memory, the run's records, and more. -/
theorem writeRegister_frame (s : State) (v : Word) (r : Reg) :
    writeRegister s v r = { s with
      cmd := (writeRegister s v r).cmd, dinLo := (writeRegister s v r).dinLo, dinHi := (writeRegister s v r).dinHi
      inBase := (writeRegister s v r).inBase, inLen := (writeRegister s v r).inLen
      inOff := (writeRegister s v r).inOff, outBase := (writeRegister s v r).outBase
      outLen := (writeRegister s v r).outLen, outOff := (writeRegister s v r).outOff
      count := (writeRegister s v r).count } := by
  cases r <;> rfl

/-- Every register is found at its own offset. -/
@[simp] theorem regAt_self (r : Reg) : regAt r.offset = some r := by cases r <;> decide

/-- A marked step on a write of a register other than CMD. -/
theorem stepMarked_write {s : State} {client : Client} {r : Reg} {w : Word} {rest : List HostAction} (hr : r ≠ .cmd)
    (h : Awaits s (.writeReg client 32 r.offset w) rest) :
    stepMarked s = writeRegister ((s.setPending rest).setIssuer client) w r := by
  obtain ⟨hp, hm, hb⟩ := h
  have hl : accessLegal 32 r.offset = true := by cases r <;> decide
  have hs : step s = .next (writeRegister ((s.setPending rest).setIssuer client) w r) := by
    have hb' : (s.setPending rest).status.busy = false := hb
    simp only [step, hostStep, hm, hp, perform, performWrite, hl, regAt_self, hb']
    cases r <;> first | exact absurd rfl hr | rfl
  unfold stepMarked
  rw [hs]

/-- A marked step on the write of a legal command word whose command answers a next state. -/
theorem stepMarked_command {s t : State} {client : Client} {w : Word} {rest : List HostAction} {i : Instr}
    (h : Awaits s (writeCmd client w) rest) (hd : decode w = .ok i)
    (he : exec i (s.commandState client w rest) = .next t) : stepMarked s = t := by
  have hs : step s = .next t := by
    rw [step_writeCmd h]
    rw [runCommand_ok hd]
    exact he
  unfold stepMarked
  rw [hs]

/-- What a step that answers a next state did, as far as the context, STATUS, memory, the RAM map and the users' record
go: it left them, or ran a command, or stored one byte of the host's, or reset the block. -/
theorem step_cases {s t : State} (h : step s = .next t) :
    (t.ctx = s.ctx ∧ t.status = s.status ∧ t.mem = s.mem ∧ t.ram = s.ram ∧ t.users = s.users) ∨
    (∃ client w rest, s.pending = writeCmd client w :: rest ∧
      runCommand w (s.commandState client w rest) = .next t) ∨
    (∃ a v rest, s.pending = .storeMem a v :: rest ∧ a < Config.memTop ∧
      t = { s with pending := rest, mem := s.mem.write a v }) ∨
    (∃ rest, s.pending = .reset :: rest ∧ t = (s.setPending rest).resetBlock) := by
  obtain ⟨-, ⟨-, rfl⟩ | ⟨a, rest, hp, ha⟩⟩ := step_next h
  · exact .inl ⟨rfl, rfl, rfl, rfl, rfl⟩
  cases a with
  | writeReg client width offset v =>
    simp only [perform, performWrite] at ha
    split at ha
    · cases ha
    next hl =>
    split at ha
    · cases ha
    split at ha
    · cases ha; exact .inl ⟨rfl, rfl, rfl, rfl, rfl⟩
    next hr =>
      have ho : offset = 0x00#8 := (regAt_offset hr).symm
      have hw : width = 32 := ((accessLegal_iff width offset).mp (by simpa using hl)).1
      subst ho hw
      exact .inr (.inl ⟨client, v, rest, hp, ha⟩)
    next r _ _ =>
      cases ha
      rw [writeRegister_frame]
      exact .inl ⟨rfl, rfl, rfl, rfl, rfl⟩
  | readReg client width offset =>
    simp only [perform, performRead] at ha
    split at ha
    · cases ha
    split at ha
    · cases ha
    cases ha
    exact .inl ⟨rfl, rfl, rfl, rfl, rfl⟩
  | storeMem a v =>
    simp only [perform, performStore, State.withMemory] at ha
    split at ha
    · cases ha
    next hlt =>
    split at ha
    · cases ha
    split at ha
    · cases ha
    cases ha
    exact .inr (.inr (.inl ⟨a, v, rest, hp, by omega, rfl⟩))
  | loadMem a =>
    simp only [perform, performLoad, State.withMemory] at ha
    split at ha
    · cases ha
    split at ha
    · cases ha
    split at ha
    · cases ha
    cases ha
    exact .inl ⟨rfl, rfl, rfl, rfl, rfl⟩
  | reset =>
    simp only [perform, performReset] at ha
    split at ha
    · cases ha
    cases ha
    exact .inr (.inr (.inr ⟨rest, hp, rfl⟩))

end Sys2Proof.Machine
end

