-- ==== Sys2Proof/Tests/Slice0.lean ====
section
/-! SUPPORT. Tests of single steps against the words and vectors of spec/ (30_encoding.md; 95_test_vectors.md), and for
each obligation with hypotheses a named witness that meets them. Every expected value is copied from spec/. -/

namespace Sys2Proof.Tests

open Sys2Proof.Machine

/-! ## Helpers -/

/-- The next state of an outcome, if it is one. -/
def nextOf : Outcome → Option State
  | .next t => some t
  | .fault _ => none
  | .refused _ => none

/-- The refusal of an outcome, if it is one. -/
def refusalOf : Outcome → Option Refusal
  | .next _ => none
  | .fault _ => none
  | .refused r => some r

/-- A valid context of a variant, written as 95_test_vectors.md writes it. -/
def ctxOf (v : Variant) (response level : Int) (lastBit : Bool) (filteredLastLevel lowPassLevel : Int) : Context :=
  { variant := v, response := response, level := level, lastBit := lastBit, filteredLastLevel := filteredLastLevel,
    lowPassLevel := lowPassLevel, valid := true }

/-- The reset state with one host action waiting. -/
def awaiting (a : HostAction) : State := { State.reset with pending := [a] }

/-- The state right after INIT. -/
def freshState (v : Variant) : State := { State.reset with ctx := Context.fresh v }

def client : Client := { host := 0, stream := 0 }

/-- The 16-sample tone of L2.4. -/
def toneBytes : List Byte :=
  [0x00#8, 0x31#8, 0x5A#8, 0x75#8, 0x7F#8, 0x75#8, 0x5A#8, 0x31#8,
   0x00#8, 0xCF#8, 0xA6#8, 0x8B#8, 0x81#8, 0x8B#8, 0xA6#8, 0xCF#8]

/-- L2.4: in=(0x1000, 16, 0), out=(0x2000, 2, 0), COUNT 16, after INIT, with the tone in memory. -/
def encState (v : Variant) : State :=
  { freshState v with
    inBase := 0x1000#32, inLen := 16#32, outBase := 0x2000#32, outLen := 2#32, count := 16#32
    mem := Memory.writeBytes [] 0x1000 toneBytes }

/-- L2.7: in=(0x2000, 2, 0), out=(0x3000, 16, 0), COUNT 2, after INIT, with two code bytes in memory. -/
def decState (v : Variant) (first second : Byte) : State :=
  { freshState v with
    inBase := 0x2000#32, inLen := 2#32, outBase := 0x3000#32, outLen := 16#32, count := 2#32
    mem := Memory.writeBytes [] 0x2000 [first, second] }

/-- Another host, for another stream, has used the context. -/
def foreign (s : State) : State := { s with users := [{ host := 1, stream := 1 }] }

/-- A fresh context with these users, and a command of this client to come. -/
def usedBy (users : List Client) (c : Client) : State := { freshState .modern with users := users, issuer := c }

/-! ## Well-formedness: an ill-formed term for each check (R76) -/

theorem test_reservedClear_refuses :
    ({ op := 1#4, v := 0#1, rsvd := 1#27 } : CommandFields).wellFormed = false := by decide

theorem test_opAssigned_refuses_zero :
    ({ op := 0#4, v := 0#1, rsvd := 0#27 } : CommandFields).wellFormed = false := by decide

theorem test_opAssigned_refuses_six :
    ({ op := 6#4, v := 0#1, rsvd := 0#27 } : CommandFields).wellFormed = false := by decide

theorem test_variantAllowed_refuses :
    ({ op := 5#4, v := 1#1, rsvd := 0#27 } : CommandFields).wellFormed = false := by decide

theorem test_wellFormed_accepts_legacy :
    ({ op := 1#4, v := 1#1, rsvd := 0#27 } : CommandFields).wellFormed = true := by decide

/-! ## Decoding words written out bit by bit: RSVD 31:5, V 4, OP 3:0 (R72, R73) -/

theorem test_decode_init_modern :
    decode 0b00000000000000000000000000000001#32 = .ok (.init .modern) := by decide

theorem test_decode_init_legacy :
    decode 0b00000000000000000000000000010001#32 = .ok (.init .legacy) := by decide

theorem test_decode_enc8 : decode 0b00000000000000000000000000000010#32 = .ok .enc8 := by decide

theorem test_decode_dec8 : decode 0b00000000000000000000000000000011#32 = .ok .dec8 := by decide

theorem test_decode_encb : decode 0b00000000000000000000000000000100#32 = .ok .encb := by decide

theorem test_decode_decb : decode 0b00000000000000000000000000000101#32 = .ok .decb := by decide

/-- L2.8: a reserved OP, RSVD bit 5, V = 1 on ENC8, the highest reserved OP, RSVD bit 31. -/
theorem test_decode_illegal :
    decode 0x00000000#32 = .error .reservedOp ∧ decode 0x00000021#32 = .error .reservedBits ∧
    decode 0x00000012#32 = .error .variantBit ∧ decode 0x0000000F#32 = .error .reservedOp ∧
    decode 0x80000004#32 = .error .reservedBits := by decide

theorem test_encode_words :
    encode (.init .legacy) = 0x11#32 ∧ encode (.init .modern) = 0x1#32 ∧ encode .enc8 = 0x2#32 ∧
    encode .dec8 = 0x3#32 ∧ encode .encb = 0x4#32 ∧ encode .decb = 0x5#32 := by decide

theorem test_decodeTableWord_reads_rows :
    decodeTableWord 32 0x1 = some (.init .modern) ∧ decodeTableWord 32 0x5 = some .decb ∧
    decodeTableWord 32 0x6 = none := by decide

/-! ## ADVANCE, ENCSTEP and DECSTEP (L2.1, L2.2, L2.5) -/

theorem test_advance_full_swing_modern :
    advance false (ctxOf .modern 1023 127 true 0 0) = ctxOf .modern 1022 (-128) false 0 0 := by decide

theorem test_advance_floors_negative :
    advance false (ctxOf .modern 600 0 false 0 0) = ctxOf .modern 601 (-75) false 0 0 := by decide

theorem test_advance_legacy_full_swing :
    advance true (ctxOf .legacy 255 (-128) false 0 0) = ctxOf .legacy 235 126 true 0 0 := by decide

theorem test_advance_legacy_nudge :
    advance true (ctxOf .legacy 1 0 false 0 0) = ctxOf .legacy 0 1 true 0 0 := by decide

theorem test_encodeBit_ties :
    encodeBit 127 (ctxOf .modern 8 127 true 0 0) = true ∧ encodeBit 0 (ctxOf .modern 0 0 false 0 0) = false ∧
    encodeBit (-2) (ctxOf .legacy 8 (-2) false 0 0) = false := by decide

theorem test_decodeNext_negative_average :
    decodeNext false (ctxOf .modern 8 (-3) true (-4) 0) = ctxOf .modern 8 (-4) false (-4) (-2) := by decide

theorem test_decodeNext_stale_snapshot :
    decodeNext false (ctxOf .modern 15 10 true 0 0) = ctxOf .modern 14 8 false 8 2 := by decide

theorem test_decodeNext_legacy_swing :
    decodeNext true (ctxOf .legacy 255 (-128) false (-128) (-128)) = ctxOf .legacy 235 126 true 126 (-78) := by decide

/-! ## One command (L2.3, L2.4, L2.6, L2.7, L2.8) -/

theorem test_init_legacy_from_reset :
    (nextOf (exec (.init .legacy) State.reset)).map (fun t => (t.ctx.cfgWord, t.ctx.paramsWord, t.status.toWord)) =
      some (0x3#32, 0x64081407#32, 0#32) := by decide

theorem test_enc8_ramp_modern :
    (nextOf (exec .enc8 { freshState .modern with dinLo := 0x04030201#32, dinHi := 0x08070605#32 })).map
      (fun t => (t.doutLo, t.doutHi, t.ctx)) = some (0x7F#32, 0#32, ctxOf .modern 13 6 false 0 0) := by decide

theorem test_enc8_sign_and_bit_order_legacy :
    (nextOf (exec .enc8 { freshState .legacy with dinLo := 0x9C9C9C9C#32, dinHi := 0x64646464#32 })).map
      (fun t => (t.doutLo, t.ctx)) = some (0xF0#32, ctxOf .legacy 43 37 true 0 0) := by decide

theorem test_dec8_lanes_legacy :
    (nextOf (exec .dec8 { freshState .legacy with dinLo := 0xF0#32 })).map (fun t => (t.doutLo, t.doutHi, t.ctx)) =
      some (0xF4FAFE00#32, 0x1206FCF4#32, ctxOf .legacy 43 37 true 37 18) := by decide

theorem test_dec8_bit_order_modern :
    (nextOf (exec .dec8 { freshState .modern with dinLo := 0x01#32 })).map (fun t => (t.doutLo, t.doutHi)) =
      some (0xFF000101#32, 0xFAFCFDFE#32) := by decide

theorem test_encb_tone_legacy :
    (nextOf (exec .encb (encState .legacy))).map (fun t => (t.mem.read 0x2000, t.mem.read 0x2001, t.ctx)) =
      some (0xFE#8, 0x80#8, ctxOf .legacy 68 (-29) true 0 0) := by decide

/-- L2.4: COUNT has priority over a negative offset; an offset that fills the buffer exactly is accepted. -/
theorem test_encb_checks :
    (nextOf (exec .encb { encState .modern with count := 12#32, inOff := 0xFFFFFFFF#32 })).map (·.status.toWord) =
      some 0x5#32 ∧
    (nextOf (exec .encb { encState .modern with count := 8#32, inOff := 8#32 })).map (·.status.toWord) =
      some 0x0#32 ∧
    (nextOf (exec .encb { encState .modern with inBase := 0xFFFFFFF8#32 })).map (·.status.toWord) = some 0x9#32 ∧
    refusalOf (exec .encb { encState .modern with outBase := 0x1008#32 }) = some .overlap := by decide

theorem test_decb_tone_modern :
    (nextOf (exec .decb (decState .modern 0xFE#8 0x00#8))).map
      (fun t => (t.mem.read 0x3000, t.mem.read 0x3007, t.mem.read 0x300F, t.ctx)) =
      some (0xFF#8, 0x06#8, 0xF8#8, ctxOf .modern 20 (-9) false (-9) (-8)) := by decide

/-- L2.7: COUNT 0 is accepted, its offset is still checked, and 8n = 2^31 does not wrap. -/
theorem test_decb_checks :
    (nextOf (exec .decb { decState .modern 0xFE#8 0x00#8 with count := 0#32 })).map (·.status.toWord) = some 0x0#32 ∧
    (nextOf (exec .decb { decState .modern 0xFE#8 0x00#8 with count := 0#32, inOff := 0xFFFFFFFF#32 })).map
      (·.status.toWord) = some 0x9#32 ∧
    (nextOf (exec .decb { decState .modern 0xFE#8 0x00#8 with
      count := 0x10000000#32, inLen := 0x10000000#32 })).map (·.status.toWord) = some 0xD#32 ∧
    refusalOf (exec .decb { decState .modern 0xFE#8 0x00#8 with outBase := 0x2001#32 }) = some .overlap := by decide

/-! ## Steps of the host (R28, R38, R58) -/

theorem test_signed_context_view :
    readOffset { State.reset with ctx := ctxOf .legacy 68 (-9) true (-9) (-65) } 0x48#8 = 0xFFFFFFF7#32 ∧
    readOffset { State.reset with ctx := ctxOf .legacy 68 (-9) true (-9) (-65) } 0x54#8 = 0xFFFFFFBF#32 := by decide

theorem test_withFetchWord_runs_first :
    (nextOf (step (State.reset.withFetchWord 32 0x11))).map (·.ctx) = some (Context.fresh .legacy) := by decide

theorem test_program_expands :
    programActions client [.enc8 100 100 100 100 (-100) (-100) (-100) (-100), .rd .status] =
      [.writeReg client 32 0x08#8 0x64646464#32, .writeReg client 32 0x0C#8 0x9C9C9C9C#32,
       .writeReg client 32 0x00#8 0x2#32, .readReg client 32 0x04#8] := by decide

/-! ## Witnesses: states and operands that meet the hypotheses of the obligations -/

theorem awaiting_awaits (a : HostAction) : Awaits (awaiting a) a [] := ⟨rfl, rfl, rfl⟩

theorem witness_DecodeIsEncodeInverted : (Instr.init .legacy).wellFormed = true ∧
    decode 0x11#32 = .ok (.init .legacy) ∧ encode (.init .legacy) = 0x11#32 := by decide

/-- The three conditions of R76 at the ends of their ranges. -/
theorem witness_IllegalWordIsInvalidCommand :
    Awaits (awaiting (writeCmd client 0x20#32)) (writeCmd client 0x20#32) [] ∧ (0x20#32).toNat / 32 ≠ 0 ∧
    (0xFFFFFFFF#32).toNat / 32 ≠ 0 ∧ (0x0#32).toNat % 16 = 0 ∧ 6 ≤ (0x6#32).toNat % 16 ∧
    6 ≤ (0xF#32).toNat % 16 ∧
    ((2 ≤ (0x12#32).toNat % 16 ∧ (0x12#32).toNat % 16 ≤ 5) ∧ (0x12#32).toNat / 16 % 2 = 1) ∧
    ((2 ≤ (0x15#32).toNat % 16 ∧ (0x15#32).toNat % 16 ≤ 5) ∧ (0x15#32).toNat / 16 % 2 = 1) := by decide

theorem witness_StepRunsTheDecodedCommand :
    Awaits (awaiting (writeCmd client 0x11#32)) (writeCmd client 0x11#32) [] ∧
    decode 0x11#32 = .ok (.init .legacy) := by decide

/-- A wrong width, a wrong offset, the highest register offset, and a read of CMD. -/
theorem witness_RegisterAccessWidthAndAlignment :
    Awaits (awaiting (.writeReg client 16 0x08#8 0#32)) (.writeReg client 16 0x08#8 0#32) [] ∧
    Awaits (awaiting (.readReg client 32 0xFF#8)) (.readReg client 32 0xFF#8) [] ∧ (0xFF#8).toNat % 4 ≠ 0 ∧
    Awaits (awaiting (.writeReg client 32 0xFC#8 0#32)) (.writeReg client 32 0xFC#8 0#32) [] ∧
    ((0xFC#8).toNat % 4 = 0 ∧ 0xFC#8 ≠ 0#8) ∧
    Awaits (awaiting (.readReg client 32 0x00#8)) (.readReg client 32 0x00#8) [] ∧ (0x00#8).toNat % 4 = 0 := by decide

theorem witness_PlainRegisterWrite :
    Awaits (awaiting (.writeReg client 32 0x30#8 0xFFFFFFFF#32)) (.writeReg client 32 0x30#8 0xFFFFFFFF#32) [] ∧
    0x30#8 ∈ [0x08#8, 0x0C#8, 0x18#8, 0x1C#8, 0x20#8, 0x24#8, 0x28#8, 0x2C#8, 0x30#8] ∧
    Awaits (awaiting (.writeReg client 32 0x08#8 0#32)) (.writeReg client 32 0x08#8 0#32) [] ∧
    0x08#8 ∈ [0x08#8, 0x0C#8, 0x18#8, 0x1C#8, 0x20#8, 0x24#8, 0x28#8, 0x2C#8, 0x30#8] := by decide

/-- The ends of the ranges: offsets 0x34 and 0xFC written, 0x34, 0x3C, 0x5C and 0xFC read. -/
theorem witness_ReadOnlyAndReservedOffsets :
    Awaits (awaiting (.writeReg client 32 0x34#8 1#32)) (.writeReg client 32 0x34#8 1#32) [] ∧
    ((0x34#8).toNat % 4 = 0 ∧ 0x34 ≤ (0x34#8).toNat) ∧ ((0xFC#8).toNat % 4 = 0 ∧ 0x34 ≤ (0xFC#8).toNat) ∧
    Awaits (awaiting (.readReg client 32 0x3C#8)) (.readReg client 32 0x3C#8) [] ∧
    ((0x3C#8).toNat % 4 = 0 ∧ 0x34 ≤ (0x3C#8).toNat ∧ (0x3C#8).toNat ≤ 0x3C) ∧
    ((0x5C#8).toNat % 4 = 0 ∧ 0x5C ≤ (0x5C#8).toNat) := by decide

theorem witness_ContextViewReads :
    ContextInRange (awaiting (.readReg client 32 0x40#8)).ctx ∧
    Awaits (awaiting (.readReg client 32 0x40#8)) (.readReg client 32 0x40#8) [] ∧
    0x40#8 ∈ [0x40#8, 0x44#8, 0x48#8, 0x4C#8, 0x50#8, 0x54#8, 0x58#8] ∧
    ContextInRange { awaiting (.readReg client 32 0x58#8) with ctx := ctxOf .legacy 255 127 true 127 (-128) }.ctx ∧
    Awaits { awaiting (.readReg client 32 0x58#8) with ctx := ctxOf .legacy 255 127 true 127 (-128) }
      (.readReg client 32 0x58#8) [] ∧
    0x58#8 ∈ [0x40#8, 0x44#8, 0x48#8, 0x4C#8, 0x50#8, 0x54#8, 0x58#8] := by decide

theorem witness_StatusWordReads :
    (awaiting (.readReg client 32 0x04#8)).pending = [.readReg client 32 0x04#8] ∧
    (awaiting (.readReg client 32 0x04#8)).refusedMark = none ∧ Inv (awaiting (.readReg client 32 0x04#8)) := by
  decide

/-- The reset state with BUSY = 1, a DECB in CMD, one action waiting, and a one-byte output buffer at 0x100. -/
def busyState (a : HostAction) : State :=
  { awaiting a with
    status := { kind := .ok, cause := .none, busy := true }, cmd := 0x5#32, outBase := 0x100#32, outLen := 1#32 }

/-- While BUSY = 1: a write, a read of another register, a reset, a store to and a load from a buffer, and a read of STATUS
wait, each in its own state. -/
theorem witness_BusyRefusesHostAccess :
    ((busyState .reset).refusedMark = none ∧ (busyState .reset).status.busy = true ∧
      (busyState .reset).pending = [.reset]) ∧
    (busyState (.writeReg client 32 0x08#8 1#32)).pending = [.writeReg client 32 0x08#8 1#32] ∧
    ((busyState (.readReg client 32 0x10#8)).pending = [.readReg client 32 0x10#8] ∧ 0x10#8 ≠ 0x04#8) ∧
    ((busyState (.storeMem 0x100 1#8)).pending = [.storeMem 0x100 1#8] ∧
      (busyState (.storeMem 0x100 1#8)).cmd = 0x5#32 ∧
      (busyState (.storeMem 0x100 1#8)).outBase.toNat ≤ 0x100 ∧
      0x100 < (busyState (.storeMem 0x100 1#8)).outBase.toNat + (busyState (.storeMem 0x100 1#8)).outLen.toNat) ∧
    ((busyState (.loadMem 0x100)).pending = [.loadMem 0x100] ∧ (busyState (.loadMem 0x100)).cmd = 0x5#32) ∧
    (busyState (.readReg client 32 0x04#8)).pending = [.readReg client 32 0x04#8] ∧ (0x10#8).toNat % 4 = 0 := by
  decide

/-- The three clauses at the top of the address space. -/
theorem witness_HostStoreChangesOneByte :
    Awaits (awaiting (.storeMem (2 ^ 32) 1#8)) (.storeMem (2 ^ 32) 1#8) [] ∧ 2 ^ 32 ≤ 2 ^ 32 ∧
    ¬ IsBacked { awaiting (.storeMem (2 ^ 32 - 1) 1#8) with ram := [] } (2 ^ 32 - 1) ∧
    IsBacked (awaiting (.storeMem (2 ^ 32 - 1) 1#8)) (2 ^ 32 - 1) ∧
    (awaiting (.storeMem (2 ^ 32 - 1) 1#8)).mem.wf := by decide

theorem witness_ResetPutsEveryRegister :
    Awaits { encState .legacy with pending := [.reset] } .reset [] := by decide

theorem witness_IdleStepRetainsAllState :
    (encState .legacy).pending = [] ∧ (encState .legacy).refusedMark = none := by decide

theorem witness_RefusedMarkStays :
    (awaiting (.readReg client 8 0x00#8)).refusedMark = none ∧
    step (awaiting (.readReg client 8 0x00#8)) = .refused .badAccess ∧
    { State.reset with refusedMark := some .overlap }.refusedMark = some Refusal.overlap := ⟨rfl, rfl, rfl⟩

theorem witness_StepKeepsInvariant :
    Inv (State.reset.withFetchWord 32 0x11) ∧ (nextOf (step (State.reset.withFetchWord 32 0x11))).isSome = true := by
  decide

theorem witness_SingleHostIsNeverRefusedAsShared :
    SingleHost 0 (State.reset.withFetchWord 32 0x2) ∧ (State.reset.withFetchWord 32 0x2).refusedMark = none := by
  refine ⟨⟨fun a ha => ?_, fun u hu => ?_⟩, rfl⟩
  · obtain rfl : a = .writeReg client 32 0x00#8 0x2#32 := List.mem_singleton.mp ha
    rfl
  · cases hu

/-- Both words of INIT, and an illegal word with OP = 0x1. -/
theorem witness_InitConstructsAContext :
    Awaits (awaiting (writeCmd client 0x1#32)) (writeCmd client 0x1#32) [] ∧
    ((0x1#32).toNat % 16 = 1 ∧ (0x1#32).toNat / 32 = 0) ∧ ((0x11#32).toNat % 16 = 1 ∧ (0x11#32).toNat / 32 = 0) ∧
    ((0x21#32).toNat % 16 = 1 ∧ (0x21#32).toNat / 32 ≠ 0) := by decide

theorem witness_OnlyInitChangesTheVariant :
    (nextOf (exec .dec8 (freshState .legacy))).isSome = true ∧ (∀ v, Instr.dec8 ≠ .init v) ∧
    (nextOf (step { encState .legacy with pending := [writeCmd client 0x1#32] })).map (·.ctx.variant) =
      some .modern := by
  refine ⟨by decide, by simp, by decide⟩

theorem witness_NoContextGate : State.reset.ctx.valid = false ∧ ∀ v, Instr.encb ≠ .init v := ⟨rfl, by simp⟩

/-- The ends of the level range, and a level between them. -/
theorem witness_AdvanceMovesTowardTheRail :
    ContextInRange (ctxOf .modern 1023 126 true 0 0) ∧ ContextInRange (ctxOf .legacy 255 (-127) true 0 0) ∧
    ContextInRange (ctxOf .modern 1023 127 true 127 127) ∧
    ContextInRange (ctxOf .legacy 0 (-128) false (-128) (-128)) := by decide

theorem witness_ResponseRangeAndFloor :
    ContextInRange (ctxOf .legacy 255 0 false 0 0) ∧ ContextInRange (ctxOf .modern 1023 0 false 0 0) := by decide

theorem witness_ModernResponseRamp :
    (ctxOf .modern 8 0 true 0 0).variant = .modern ∧ 8 ≤ (ctxOf .modern 8 0 true 0 0).response ∧
    (ctxOf .modern 1023 0 true 0 0).response ≤ 1023 ∧ (Context.fresh .modern).response = 0 := by decide

theorem witness_IntermediatesFitTwentyBits :
    ContextInRange (ctxOf .legacy 255 (-128) true 127 (-128)) ∧
    ContextInRange (ctxOf .modern 1023 127 true 127 127) ∧ (-128 : Int) ≤ -128 ∧ (127 : Int) ≤ 127 := by decide

theorem not_foreign (s : State) (h : s.users = []) : ¬ SharedClients s :=
  not_shared_of_one_host fun u hu => by rw [h] at hu; cases hu

theorem witness_Enc8EncodesAGroup :
    State.reset.ctx.valid = false ∧ (freshState .modern).ctx.valid = true ∧
    ¬ SharedClients (freshState .modern) :=
  ⟨rfl, rfl, not_foreign _ rfl⟩

theorem witness_EncodeIgnoresTheDecodeFields :
    (nextOf (exec .enc8 (freshState .modern))).isSome = true ∧
    (nextOf (exec .encb (encState .legacy))).isSome = true := by decide

/-- An outcome that is a next state with STATUS OK, from a decided check. -/
theorem next_of_ok {o : Outcome} (h : (nextOf o).map (·.status.kind) = some .ok) :
    ∃ t, o = .next t ∧ t.status.kind = .ok := by
  cases o with
  | next t => exact ⟨t, rfl, by simpa [nextOf] using h⟩
  | fault r => simp [nextOf] at h
  | refused r => simp [nextOf] at h

theorem encodeAccepted_of_ok {s : State} (h : (nextOf (exec .encb s)).map (·.status.kind) = some .ok) :
    EncodeAccepted s := by
  obtain ⟨t, he, hk⟩ := next_of_ok h
  exact (execEncb_ok he hk).1

theorem decodeAccepted_of_ok {s : State} (h : (nextOf (exec .decb s)).map (·.status.kind) = some .ok) :
    DecodeAccepted s := by
  obtain ⟨t, he, hk⟩ := next_of_ok h
  exact (execDecb_ok he hk).1

/-- One state for each rejection of ENCB: count 0, io + n one past INLEN, oo + n/8 one past OUTLEN, the last input byte
stored over, and no RAM. -/
theorem witness_EncbRejects :
    (encState .modern).ctx.valid = true ∧
    EncodeCountIllegal { encState .modern with count := 0#32 } ∧
    (¬ EncodeCountIllegal { encState .modern with inLen := 15#32 } ∧
      InputOutOfBounds { encState .modern with inLen := 15#32 } 16) ∧
    (¬ EncodeCountIllegal { encState .modern with outLen := 1#32 } ∧
      ¬ InputOutOfBounds { encState .modern with outLen := 1#32 } 16 ∧
      OutputOutOfBounds { encState .modern with outLen := 1#32 } 2) ∧
    (¬ EncodeCountIllegal { encState .modern with outBase := 0x100F#32 } ∧
      ¬ InputOutOfBounds { encState .modern with outBase := 0x100F#32 } 16 ∧
      ¬ OutputOutOfBounds { encState .modern with outBase := 0x100F#32 } 2 ∧
      RangesOverlap { encState .modern with outBase := 0x100F#32 } 16 2) ∧
    (¬ EncodeCountIllegal { encState .modern with ram := [] } ∧
      ¬ InputOutOfBounds { encState .modern with ram := [] } 16 ∧
      ¬ OutputOutOfBounds { encState .modern with ram := [] } 2 ∧
      ¬ RangesOverlap { encState .modern with ram := [] } 16 2 ∧
      SomeUnbacked { encState .modern with ram := [] } 16 2) := by
  refine ⟨rfl, by decide, by decide, by decide, ⟨by decide, by decide, by decide, 0x100F, by decide, by decide⟩,
    by decide, by decide, by decide, (encodeAccepted_of_ok (s := encState .modern) (by decide)).2.2.2.2.1,
    0x1000, .inl (by decide), ?_⟩
  rintro ⟨r, hr, -⟩
  cases hr

theorem witness_EncbEncodesABuffer : EncodeAccepted (encState .legacy) ∧ (encState .legacy).mem.wf :=
  ⟨encodeAccepted_of_ok (by decide), by decide⟩

theorem witness_EncbChunkingEquivalence :
    ((8 : Nat) % 8 = 0 ∧ 8 + 8 < 2 ^ 31) ∧ (encState .modern).inOff.toInt + 8 < 2 ^ 31 ∧
    (encState .modern).outOff.toInt + 8 / 8 < 2 ^ 31 ∧
    (encState .modern).count = BitVec.ofNat 32 (8 + 8) ∧
    (nextOf (exec .encb (encState .modern))).map (·.status.kind) = some .ok := by decide

theorem witness_EncbIsEnc8GroupByGroup :
    EncodeAccepted (encState .modern) ∧ (encState .modern).mem.wf ∧
    (nextOf (exec .encb (encState .modern))).isSome = true :=
  ⟨encodeAccepted_of_ok (by decide), by decide, by decide⟩

theorem witness_DecodeFieldsStayInRange : ContextInRange (ctxOf .modern 1023 127 true 127 127) := by decide

theorem witness_NarrowingIsTheIdentityInRange :
    ContextInRange (ctxOf .legacy 255 (-128) false (-128) (-128)) := by decide

theorem witness_Dec8DecodesAByte :
    State.reset.ctx.valid = false ∧ (freshState .legacy).ctx.valid = true ∧
    ¬ SharedClients (freshState .legacy) :=
  ⟨rfl, rfl, not_foreign _ rfl⟩

theorem witness_Dec8IgnoresTheOtherDinBits :
    (0xFFFFFFF0#32).extractLsb' 0 8 = (0x000000F0#32).extractLsb' 0 8 ∧
    (nextOf (exec .dec8 { freshState .legacy with dinLo := 0x000000F0#32 })).isSome = true := by decide

/-- One state for each rejection of DECB, likewise; the second input byte is stored over. -/
theorem witness_DecbRejects :
    (decState .modern 0xFE#8 0x00#8).ctx.valid = true ∧
    DecodeCountIllegal { decState .modern 0xFE#8 0x00#8 with count := 0xFFFFFFFF#32 } ∧
    (¬ DecodeCountIllegal { decState .modern 0xFE#8 0x00#8 with inLen := 1#32 } ∧
      InputOutOfBounds { decState .modern 0xFE#8 0x00#8 with inLen := 1#32 } 2) ∧
    (¬ DecodeCountIllegal { decState .modern 0xFE#8 0x00#8 with outLen := 15#32 } ∧
      ¬ InputOutOfBounds { decState .modern 0xFE#8 0x00#8 with outLen := 15#32 } 2 ∧
      OutputOutOfBounds { decState .modern 0xFE#8 0x00#8 with outLen := 15#32 } 16) ∧
    (¬ DecodeCountIllegal { decState .modern 0xFE#8 0x00#8 with outBase := 0x2001#32 } ∧
      ¬ InputOutOfBounds { decState .modern 0xFE#8 0x00#8 with outBase := 0x2001#32 } 2 ∧
      ¬ OutputOutOfBounds { decState .modern 0xFE#8 0x00#8 with outBase := 0x2001#32 } 16 ∧
      RangesOverlap { decState .modern 0xFE#8 0x00#8 with outBase := 0x2001#32 } 2 16) ∧
    (¬ DecodeCountIllegal { decState .modern 0xFE#8 0x00#8 with ram := [] } ∧
      ¬ InputOutOfBounds { decState .modern 0xFE#8 0x00#8 with ram := [] } 2 ∧
      ¬ OutputOutOfBounds { decState .modern 0xFE#8 0x00#8 with ram := [] } 16 ∧
      ¬ RangesOverlap { decState .modern 0xFE#8 0x00#8 with ram := [] } 2 16 ∧
      SomeUnbacked { decState .modern 0xFE#8 0x00#8 with ram := [] } 2 16) := by
  refine ⟨rfl, by decide, by decide, by decide, ⟨by decide, by decide, by decide, 0x2001, by decide, by decide⟩,
    by decide, by decide, by decide, (decodeAccepted_of_ok (s := decState .modern 0xFE#8 0x00#8) (by decide)).2.2.2.2.1,
    0x2000, .inl (by decide), ?_⟩
  rintro ⟨r, hr, -⟩
  cases hr

theorem witness_DecbDecodesABuffer :
    DecodeAccepted (decState .legacy 0xFE#8 0x80#8) ∧ (decState .legacy 0xFE#8 0x80#8).mem.wf :=
  ⟨decodeAccepted_of_ok (by decide), by decide⟩

theorem witness_DecbChunkingEquivalence :
    (1 + 1 < 2 ^ 31) ∧ (decState .modern 0xFE#8 0x00#8).inOff.toInt + 1 < 2 ^ 31 ∧
    (decState .modern 0xFE#8 0x00#8).outOff.toInt + 8 * 1 < 2 ^ 31 ∧
    (decState .modern 0xFE#8 0x00#8).count = BitVec.ofNat 32 (1 + 1) ∧
    (nextOf (exec .decb (decState .modern 0xFE#8 0x00#8))).map (·.status.kind) = some .ok := by decide

theorem witness_DecbIsDec8ByteByByte :
    DecodeAccepted (decState .modern 0xFE#8 0x00#8) ∧ (decState .modern 0xFE#8 0x00#8).mem.wf ∧
    (nextOf (exec .decb (decState .modern 0xFE#8 0x00#8))).isSome = true :=
  ⟨decodeAccepted_of_ok (by decide), by decide, by decide⟩

theorem witness_DecodeKeepsTheSnapshot :
    (freshState .modern).ctx.filteredLastLevel = (freshState .modern).ctx.level ∧
    (nextOf (exec .dec8 (freshState .modern))).isSome = true ∧
    (ctxOf .modern 8 10 true 10 9).filteredLastLevel = (ctxOf .modern 8 10 true 10 9).level ∧
    false ≠ (ctxOf .modern 8 10 true 10 9).lastBit := by decide

theorem witness_DecoderFollowsTheEncoder :
    (freshState .modern).ctx.valid = true ∧ ¬ SharedClients (freshState .modern) :=
  ⟨rfl, not_foreign _ rfl⟩

theorem witness_RejectionIsAtomic :
    (nextOf (runCommand 0x4#32 { encState .modern with count := 12#32 })).map (·.status.kind) =
      some .invalidArgument ∧
    (nextOf (runCommand 0x2#32 State.reset)).map (·.status.kind) = some .noContext ∧
    (nextOf (runCommand 0x0#32 State.reset)).map (·.status.kind) = some .invalidCommand := by decide

theorem witness_CommandsLeaveOperandRegisters :
    (nextOf (exec .encb (encState .modern))).map (·.status.kind) = some .ok ∧
    (nextOf (exec .dec8 State.reset)).map (·.status.kind) = some .noContext := by decide

theorem witness_StatusIsNotSticky :
    (nextOf (runCommand 0x1#32 { State.reset with
      status := { kind := .invalidArgument, cause := .count, busy := false } })).isSome = true := by decide

theorem witness_CommandsNeverHang :
    ¬ SharedClients State.reset ∧ decode 0x3#32 ≠ .ok .encb ∧ decode 0x3#32 ≠ .ok .decb :=
  ⟨not_foreign _ rfl, by decide, by decide⟩

/-- `encState` with another byte in the output range, another DOUT and another STATUS: what a command reads is equal. -/
def otherState : State :=
  { encState .modern with
    mem := (encState .modern).mem.write 0x2000 0x55#8, doutLo := 7#32
    status := { kind := .noContext, cause := .none, busy := false } }

theorem witness_CommandsAreFunctionsOfTheirInputs :
    (encState .modern).mem.wf ∧ otherState.mem.wf ∧ (encState .modern).ctx = otherState.ctx ∧
    ((encState .modern).dinLo = otherState.dinLo ∧ (encState .modern).dinHi = otherState.dinHi) ∧
    ((encState .modern).inBase = otherState.inBase ∧ (encState .modern).inLen = otherState.inLen ∧
      (encState .modern).inOff = otherState.inOff) ∧
    ((encState .modern).outBase = otherState.outBase ∧ (encState .modern).outLen = otherState.outLen ∧
      (encState .modern).outOff = otherState.outOff) ∧
    (encState .modern).count = otherState.count ∧ (encState .modern).ram = otherState.ram ∧
    (SharedClients (encState .modern) ↔ SharedClients otherState) ∧
    ((Instr.encb = .encb ∨ Instr.encb = .decb) → ∀ k < (encState .modern).count.toInt.toNat,
      (encState .modern).mem.read ((encState .modern).inAddr + k) =
        otherState.mem.read ((encState .modern).inAddr + k)) ∧
    (encState .modern).mem ≠ otherState.mem :=
  ⟨by decide, by decide, rfl, ⟨rfl, rfl⟩, ⟨rfl, rfl, rfl⟩, ⟨rfl, rfl, rfl⟩, rfl, rfl, Iff.rfl, by decide, by decide⟩

/-- R141, R163: two hosts and two streams, in each order of the users. -/
theorem test_shared_two_hosts_two_streams :
    refusalOf (exec .enc8 (usedBy [⟨0, 0⟩, ⟨0, 1⟩] ⟨1, 0⟩)) = some .shared ∧
    refusalOf (exec .enc8 (usedBy [⟨0, 1⟩, ⟨1, 1⟩] ⟨0, 2⟩)) = some .shared ∧
    refusalOf (exec .dec8 (usedBy [⟨0, 0⟩] ⟨1, 1⟩)) = some .shared := by decide

/-- R26: two hosts by turns on one stream are refused, one handover is not; R163: one host's two streams are not. -/
theorem test_shared_turns_and_handover :
    refusalOf (exec .enc8 (usedBy [⟨0, 1⟩, ⟨1, 1⟩] ⟨0, 1⟩)) = some .shared ∧
    (nextOf (exec .enc8 (usedBy [⟨0, 1⟩] ⟨1, 1⟩))).map (·.users) = some [⟨0, 1⟩, ⟨1, 1⟩] ∧
    (nextOf (exec .enc8 (usedBy [⟨0, 1⟩] ⟨0, 2⟩))).map (·.users) = some [⟨0, 1⟩, ⟨0, 2⟩] := by decide

/-- Both situations: two hosts with two streams, and two hosts by turns. -/
theorem witness_SharedContextIsRefused :
    SharedClients (foreign (encState .modern)) ∧ (foreign (encState .modern)).ctx.valid = true ∧
    SharedClients (usedBy [⟨0, 1⟩, ⟨1, 1⟩] ⟨0, 1⟩) ∧ (usedBy [⟨0, 1⟩, ⟨1, 1⟩] ⟨0, 1⟩).ctx.valid = true ∧
    refusalOf (exec .encb (foreign (encState .modern))) = some .shared ∧
    refusalOf (exec .decb (foreign (decState .modern 0xFE#8 0x00#8))) = some .shared :=
  ⟨(State.sharedUse_iff _).mp (by decide), rfl, (State.sharedUse_iff _).mp (by decide), rfl, by decide, by decide⟩

theorem witness_Enc8StatementRuns :
    { freshState .modern with
        pending := (HostStatement.enc8 1 2 3 4 5 6 7 8).expand client ++ [] }.pending =
      (HostStatement.enc8 1 2 3 4 5 6 7 8).expand client ++ [] ∧
    (freshState .modern).refusedMark = none ∧ (freshState .modern).status.busy = false := by decide

theorem witness_BufferStatementsRun :
    { encState .modern with
        pending := (HostStatement.encb ⟨0x2000, 2, 0⟩ ⟨0x1000, 16, 0⟩ 16).expand client ++ [] }.pending =
      (HostStatement.encb ⟨0x2000, 2, 0⟩ ⟨0x1000, 16, 0⟩ 16).expand client ++ [] ∧
    (encState .modern).refusedMark = none ∧ (encState .modern).status.busy = false ∧
    (nextOf (exec .encb (encState .modern))).isSome = true := by decide

theorem witness_CommandStatementsRun :
    (freshState .modern).refusedMark = none ∧ (freshState .modern).status.busy = false ∧
    { freshState .modern with pending := (HostStatement.dec8 0xFF).expand client ++ [] }.pending =
      (HostStatement.dec8 0xFF).expand client ++ [] ∧
    (nextOf (exec .dec8 { freshState .modern with dinLo := BitVec.ofInt 32 0xFF, cmd := 0x3#32 })).isSome = true ∧
    (awaiting (writeCmd client 0x11#32)).pending = (HostStatement.init .legacy).expand client ++ [] ∧
    (awaiting (writeCmd client 0x0#32)).pending = (HostStatement.cmd 0x0#32).expand client ++ [] := by decide

/-- The top byte of the space: backed there is a clean-entry state, without RAM or one byte higher there is none. -/
theorem witness_LaunchMeetsItsPremise :
    ((launch client [.mem (2 ^ 32 - 1) [1#8], .mem (2 ^ 32 - 1) [2#8]] State.reset.ram).map
      (·.mem.read (2 ^ 32 - 1))) = some 2#8 ∧
    launch client [.mem (2 ^ 32 - 1) [1#8]] [] = none ∧
    launch client [.mem (2 ^ 32 - 1) [1#8, 2#8]] [{ base := 0, size := 2 ^ 33 }] = none := by decide

theorem witness_RegisterReads :
    Awaits (awaiting (.readReg client 32 0x00#8)) (.readReg client 32 0x00#8) [] ∧
    Awaits (awaiting (.readReg client 32 0x30#8)) (.readReg client 32 0x30#8) [] ∧
    (∀ o ∈ [0x00#8, 0x30#8], o ∈ [0x00#8, 0x08#8, 0x0C#8, 0x10#8, 0x14#8, 0x18#8, 0x1C#8, 0x20#8, 0x24#8, 0x28#8,
      0x2C#8, 0x30#8]) := by decide

/-- An INIT, an accepted command and a rejected one. -/
theorem witness_ContextUsersAreRecorded :
    (nextOf (exec (.init .modern) State.reset)).map (·.users) = some [client] ∧
    (nextOf (exec .enc8 (usedBy [⟨0, 1⟩] ⟨1, 1⟩))).map (·.status.kind) = some .ok ∧
    (nextOf (exec .enc8 State.reset)).map (·.status.kind) = some .noContext := by decide

end Sys2Proof.Tests
end

/-! The scope family (00_scope.md): the machine's step on a write of CMD, and the next word that `withFetchWord`
puts before it. -/

namespace Sys2Proof.Machine

/-- A 32-bit word's own bits give the word back. -/
@[simp] theorem commandWordOf_toNat (w : Word) : commandWordOf 32 w.toNat = w := by
  rw [commandWordOf, Nat.mod_eq_of_lt w.isLt, BitVec.ofNat_toNat, BitVec.setWidth_eq]

/-- From any state, `withFetchWord` makes the write of the word to CMD the next action, with nothing in its way. -/
theorem withFetchWord_awaits (s : State) (w : Word) :
    Awaits (s.withFetchWord 32 w.toNat) (writeCmd s.issuer w) s.pending := by
  refine ⟨?_, rfl, rfl⟩
  rw [State.withFetchWord, commandWordOf_toNat, Reg.offset]

/-- A write of a legal word to CMD that nothing stands in the way of runs the word's operation. -/
theorem step_writeCmd_ok {s : State} {client : Client} {w : Word} {rest : List HostAction} {i : Instr}
    (h : Awaits s (writeCmd client w) rest) (hd : decode w = .ok i) :
    step s = exec i (s.commandState client w rest) := by
  rw [step_writeCmd h, runCommand_ok hd]

/-- Settles O4: a write of CMD that nothing stands in the way of runs its command, and `withFetchWord` puts such a
write first. -/
theorem stepRunsTheDecodedCommand : Obligations.StepRunsTheDecodedCommand := by
  refine ⟨fun s client w rest i h hd => ?_, fun s w i hd => ?_⟩
  · exact step_writeCmd_ok h hd
  · exact step_writeCmd_ok (withFetchWord_awaits s w) hd

end Sys2Proof.Machine

/-! ## The ranges of the context (10_state.md R45 to R50)

ADVANCE's level moves by a rounded fraction of the distance to the rail, so it cannot pass it; the other fields move by
fractions with literal weights. -/

namespace Sys2Proof.Machine

/-- The rounding term of a variant's level update is below its scale. -/
theorem roundingTerm_bounds (v : Variant) :
    (0 : Int) ≤ 2 ^ ((consts v).respPrec - 1) ∧ (2 : Int) ^ ((consts v).respPrec - 1) < 2 ^ (consts v).respPrec := by
  cases v <;> decide

/-- A 1 bit raises the level, strictly below the rail 127, and never past it (R46). -/
theorem nextLevel_true {c : Context} (h : ContextInRange c) :
    (c.level < 127 → c.level < nextLevel true c) ∧ c.level ≤ nextLevel true c ∧ nextLevel true c ≤ 127 := by
  obtain ⟨-, hl, -, -, -, -, hr0, hr1⟩ := h
  obtain ⟨h0, h1⟩ := roundingTerm_bounds c.variant
  have hq := floorQuotient_up (d := 127 - c.level) hr0 hr1 (by omega) h0 h1
  simp only [nextLevel, scaledLevel, floorShift, railTarget, if_true]
  split <;> omega

/-- A 0 bit lowers the level, strictly above the rail -128, and never past it (R46). -/
theorem nextLevel_false {c : Context} (h : ContextInRange c) :
    (-128 < c.level → nextLevel false c < c.level) ∧ -128 ≤ nextLevel false c ∧ nextLevel false c ≤ c.level := by
  obtain ⟨hl, -, -, -, -, -, hr0, hr1⟩ := h
  obtain ⟨h0, h1⟩ := roundingTerm_bounds c.variant
  have hq := floorQuotient_down (d := -128 - c.level) hr0 hr1 (by omega) h0 h1
  simp only [nextLevel, scaledLevel, floorShift, railTarget, Bool.false_eq_true, if_false]
  split <;> omega

theorem nextLevel_range {c : Context} (h : ContextInRange c) (bit : Bool) :
    -128 ≤ nextLevel bit c ∧ nextLevel bit c ≤ 127 := by
  cases bit with
  | true => have := nextLevel_true h; omega
  | false => have := nextLevel_false h; omega

/-- Legacy's response stays in [0, 255] (R47). -/
theorem nextResponse_legacy_range {c : Context} (hv : c.variant = .legacy) (h0 : 0 ≤ c.response)
    (h1 : c.response ≤ 255) (bit : Bool) : 0 ≤ nextResponse bit c ∧ nextResponse bit c ≤ 255 := by
  cases hc : continuing bit c <;>
    simp only [nextResponse, nudgedResponse, scaledResponse, responseTarget, responseDelta, floorShift, hv, hc, consts,
      Nat.lt_irrefl, false_and, Bool.false_eq_true, if_true, if_false] <;>
    split <;> omega

/-- Modern's response is 8 or more after any ADVANCE (R48). -/
theorem nextResponse_modern_floor {c : Context} (hv : c.variant = .modern) (bit : Bool) : 8 ≤ nextResponse bit c := by
  simp only [nextResponse, hv, consts]
  split <;> omega

/-- Modern's response stays at most 1023 (R47). -/
theorem nextResponse_modern_le {c : Context} (hv : c.variant = .modern) (h1 : c.response ≤ 1023) (bit : Bool) :
    nextResponse bit c ≤ 1023 := by
  have hn : nudgedResponse bit c ≤ 1023 := by
    cases hc : continuing bit c <;>
      simp only [nudgedResponse, scaledResponse, responseTarget, hv, hc, consts, Bool.false_eq_true, if_true,
        if_false] <;>
      split <;> omega
  simp only [nextResponse, hv, consts]
  split <;> omega

theorem nextResponse_range {c : Context} (h : ContextInRange c) (bit : Bool) :
    0 ≤ nextResponse bit c ∧ nextResponse bit c ≤ 2 ^ (consts c.variant).respPrec - 1 := by
  obtain ⟨-, -, -, -, -, -, hr0, hr1⟩ := h
  cases hv : c.variant with
  | legacy =>
    rw [hv] at hr1
    exact nextResponse_legacy_range hv hr0 hr1 bit
  | modern =>
    rw [hv] at hr1
    exact ⟨le_trans (by decide) (nextResponse_modern_floor hv bit), nextResponse_modern_le hv hr1 bit⟩

/-- The noise-shaped level lies in the level's range: it is the new level, or its average with the snapshot (R49). -/
theorem shapedLevel_range {c : Context} (h : ContextInRange c) (bit : Bool) :
    -128 ≤ shapedLevel bit c (advance bit c) ∧ shapedLevel bit c (advance bit c) ≤ 127 := by
  have hl := nextLevel_range h bit
  obtain ⟨-, -, hf0, hf1, -⟩ := h
  simp only [shapedLevel, advance_level, floorShift]
  split <;> omega

/-- The low-pass update moves toward `blevel` and never past it (R49). -/
theorem filteredOutput_between (c : Context) (blevel : Int) :
    min c.lowPassLevel blevel ≤ filteredOutput c blevel ∧ filteredOutput c blevel ≤ max c.lowPassLevel blevel := by
  cases hv : c.variant <;> simp only [filteredOutput, floorShift, hv, consts] <;> omega

theorem filteredOutput_range {c : Context} (h : ContextInRange c) {blevel : Int} (h0 : -128 ≤ blevel)
    (h1 : blevel ≤ 127) : -128 ≤ filteredOutput c blevel ∧ filteredOutput c blevel ≤ 127 := by
  have hb := filteredOutput_between c blevel
  obtain ⟨-, -, -, -, hp0, hp1, -⟩ := h
  omega

theorem advance_inRange {c : Context} (h : ContextInRange c) (bit : Bool) : ContextInRange (advance bit c) := by
  obtain ⟨hl0, hl1⟩ := nextLevel_range h bit
  obtain ⟨hr0, hr1⟩ := nextResponse_range h bit
  obtain ⟨-, -, hf0, hf1, hp0, hp1, -⟩ := h
  exact ⟨hl0, hl1, hf0, hf1, hp0, hp1, hr0, hr1⟩

theorem decodeNext_inRange {c : Context} (h : ContextInRange c) (bit : Bool) : ContextInRange (decodeNext bit c) := by
  obtain ⟨hl0, hl1⟩ := nextLevel_range h bit
  obtain ⟨hr0, hr1⟩ := nextResponse_range h bit
  obtain ⟨hb0, hb1⟩ := shapedLevel_range h bit
  obtain ⟨hp0, hp1⟩ := filteredOutput_range h hb0 hb1
  exact ⟨hl0, hl1, hl0, hl1, hp0, hp1, hr0, hr1⟩

/-- After any ADVANCE, and so after any DECSTEP, the Modern floor holds (R48). -/
theorem responseFloor_advance (bit : Bool) (c : Context) : ResponseFloor (advance bit c) :=
  fun hv => .inl (nextResponse_modern_floor (c := c) hv bit)

theorem responseFloor_decodeNext (bit : Bool) (c : Context) : ResponseFloor (decodeNext bit c) :=
  fun hv => .inl (nextResponse_modern_floor (c := c) hv bit)

/-- Settles O22: the level's quotient is a rounded fraction of the distance to the rail, and the anti-stall rule moves a
level that the quotient leaves. -/
theorem advanceMovesTowardTheRail : Obligations.AdvanceMovesTowardTheRail := by
  intro c h
  have ht := nextLevel_true h
  have hf := nextLevel_false h
  simp only [advance_level]
  omega

/-- Settles O23: the response by variant, and the fresh context that INIT writes. -/
theorem responseRangeAndFloor : Obligations.ResponseRangeAndFloor := by
  refine ⟨fun bit c h => ?_, fun bit c hv => nextResponse_modern_floor hv bit, fun s v => ⟨_, execInit_next v s, rfl⟩⟩
  obtain ⟨hr0, hr1⟩ := nextResponse_range h bit
  refine ⟨hr0, fun hv => ?_, fun hv => ?_⟩ <;>
  · rw [hv] at hr1
    exact hr1

/-- Settles O34: `blevel` first, then the low-pass update between the old value and `blevel`. -/
theorem decodeFieldsStayInRange : Obligations.DecodeFieldsStayInRange := by
  intro bit c h
  obtain ⟨hb0, hb1⟩ := shapedLevel_range h bit
  obtain ⟨hf0, hf1⟩ := nextLevel_range h bit
  obtain ⟨hp0, hp1⟩ := filteredOutput_between c (shapedLevel bit c (advance bit c))
  obtain ⟨hr0, hr1⟩ := filteredOutput_range h hb0 hb1
  exact ⟨hb0, hb1, hf0, hf1, hp0, hp1, hr0, hr1⟩

/-- A factor in [0, m] of a distance of at most 255, and a small rounding term, stay within 255 m plus that term. -/
theorem abs_product_add_le {r d m k : Int} (hr0 : 0 ≤ r) (hr1 : r ≤ m) (hd0 : -255 ≤ d) (hd1 : d ≤ 255) (hk : 0 ≤ k) :
    |r * d + k| ≤ 255 * m + k := by
  rw [abs_le]
  constructor <;> nlinarith

/-- Settles O25: each intermediate is a weight times a distance of at most 255, plus a rounding term. -/
theorem intermediatesFitTwentyBits : Obligations.IntermediatesFitTwentyBits := by
  intro bit c blevel h hb0 hb1
  obtain ⟨hn0, hn1⟩ := nextLevel_range h bit
  obtain ⟨hl0, hl1, hf0, hf1, hp0, hp1, hr0, hr1⟩ := h
  have ht : -255 ≤ railTarget bit - c.level ∧ railTarget bit - c.level ≤ 255 := by
    cases bit <;> simp only [railTarget, if_true, if_false, Bool.false_eq_true] <;> omega
  have hd : -255 ≤ blevel - c.lowPassLevel ∧ blevel - c.lowPassLevel ≤ 255 := by omega
  refine ⟨fun hv => ?_, fun hv => ?_, ?_⟩
  · rw [hv] at hr1 ⊢
    have hr1 : c.response ≤ 255 := hr1
    refine ⟨abs_product_add_le hr0 hr1 ht.1 ht.2 (by decide), ?_, ?_⟩
    · cases hc : continuing bit c <;>
        simp only [responseDelta, responseTarget, hv, hc, consts, abs_le, Bool.false_eq_true, if_true, if_false] <;> omega
    · exact abs_product_add_le (r := 100) (m := 100) (k := 128) (by decide) le_rfl hd.1 hd.2 (by decide)
  · rw [hv] at hr1 ⊢
    have hr1 : c.response ≤ 1023 := hr1
    exact ⟨abs_product_add_le hr0 hr1 ht.1 ht.2 (by decide),
      abs_product_add_le (r := 140) (m := 140) (k := 128) (by decide) le_rfl hd.1 hd.2 (by decide)⟩
  · rw [advance_level, abs_le]
    omega

end Sys2Proof.Machine

/-! ## What every step keeps (10_state.md R19, R44 to R51, R84) -/

namespace Sys2Proof.Machine

/-- What the invariant says of the context: its ranges and the Modern response floor. -/
abbrev ContextLegal (c : Context) : Prop := ContextInRange c ∧ ResponseFloor c

theorem contextLegal_fresh (v : Variant) : ContextLegal (Context.fresh v) := by cases v <;> decide

theorem contextLegal_advance (bit : Bool) (c : Context) (h : ContextLegal c) : ContextLegal (advance bit c) :=
  ⟨advance_inRange h.1 bit, responseFloor_advance bit c⟩

theorem contextLegal_decodeNext (bit : Bool) (c : Context) (h : ContextLegal c) : ContextLegal (decodeNext bit c) :=
  ⟨decodeNext_inRange h.1 bit, responseFloor_decodeNext bit c⟩

/-- Writing a STATUS whose CAUSE fits its KIND keeps the invariant. -/
theorem inv_raise {s : State} {k : Kind} {c : Cause} (h : Inv s) (hkc : c = .none ↔ k ≠ .invalidArgument) :
    Inv (s.raise k c) := by
  obtain ⟨hr, hf, -, hm⟩ := h
  exact ⟨hr, hf, ⟨rfl, hkc⟩, hm⟩

/-- A command leaves a legal STATUS: a rejection's, or that of an accepted command (R84, R132). -/
theorem exec_statusLegal {i : Instr} {s t : State} (h : exec i s = .next t) : StatusLegal t.status := by
  rcases exec_status h with ⟨k, c, ⟨rfl, rfl⟩ | ⟨rfl, hc⟩, rfl⟩ | ht
  · exact ⟨rfl, by simp⟩
  · exact ⟨rfl, by simpa using hc⟩
  · rw [ht]
    exact ⟨rfl, by decide⟩

theorem exec_inv {i : Instr} {s t : State} (h : exec i s = .next t) (hs : Inv s) : Inv t := by
  obtain ⟨hr, hf, -, hw, hsp⟩ := hs
  obtain ⟨hr', hf'⟩ := exec_context_keeps (P := ContextLegal) h (fun v _ => contextLegal_fresh v)
    contextLegal_advance contextLegal_decodeNext ⟨hr, hf⟩
  obtain ⟨hw', hsp'⟩ := exec_memory h
  exact ⟨hr', hf', exec_statusLegal h, hw' hw, hsp' hsp⟩

theorem runCommand_inv {w : Word} {s t : State} (h : runCommand w s = .next t) (hs : Inv s) : Inv t := by
  cases hd : decode w with
  | ok i =>
    rw [runCommand_ok hd] at h
    exact exec_inv h hs
  | error e =>
    rw [runCommand_error hd] at h
    cases h
    exact inv_raise hs (by decide)

/-- Settles O15: the reset values, field by field. -/
theorem invariantAtReset : Obligations.InvariantAtReset :=
  ⟨by decide, by decide, by decide, Memory.wf_nil, by simp [State.reset]⟩

/-- A reset of the block keeps the invariant: the registers are the reset state's and memory stays (R153). -/
theorem inv_resetBlock {s : State} (h : Inv s) : Inv s.resetBlock := by
  obtain ⟨-, -, -, hm⟩ := h
  obtain ⟨hr, hf, hst, -⟩ := invariantAtReset
  exact ⟨hr, hf, hst, hm⟩

/-- Settles O16: by the four things a step can do. -/
theorem stepKeepsInvariant : Obligations.StepKeepsInvariant := by
  intro s t hs h
  rcases step_cases h with ⟨hc, hst, hm, -⟩ | ⟨client, w, rest, -, hrun⟩ | ⟨a, v, rest, -, ha, rfl⟩ | ⟨rest, -, rfl⟩
  · rw [Inv, hc, hst, hm]
    exact hs
  · exact runCommand_inv hrun hs
  · obtain ⟨hr, hf, hst, hw, hsp⟩ := hs
    exact ⟨hr, hf, hst, Memory.wf_write hw a v, Memory.inSpace_write hsp ha v⟩
  · exact inv_resetBlock (s := s.setPending rest) hs

/-- Settles O12: the reset action answers `resetBlock`, whose registers are the reset state's. -/
theorem resetPutsEveryRegister : Obligations.ResetPutsEveryRegister := by
  refine ⟨fun s rest h => ⟨(s.setPending rest).resetBlock, ?_, rfl, rfl, rfl, rfl, rfl, rfl, rfl, rfl, rfl, rfl, rfl,
    rfl, rfl, rfl, rfl, rfl, rfl⟩, rfl, rfl, rfl, rfl, rfl, rfl, rfl, rfl, rfl, rfl, rfl, rfl, rfl, rfl⟩
  rw [step_of_awaits h]
  simp [perform, performReset, h.2.2]

/-- No command but INIT changes `variant` or `valid`: ADVANCE and DECSTEP write neither (R91). -/
theorem exec_keeps_variant {i : Instr} {s t : State} (h : exec i s = .next t) (hi : ∀ v, i ≠ .init v) :
    t.ctx.variant = s.ctx.variant ∧ t.ctx.valid = s.ctx.valid :=
  exec_context_keeps (P := fun c => c.variant = s.ctx.variant ∧ c.valid = s.ctx.valid) h
    (fun v hv => absurd hv (hi v)) (fun _ _ hc => hc) (fun _ _ hc => hc) ⟨rfl, rfl⟩

/-- A command word keeps `variant` and `valid`, or is INIT's and sets its variant. -/
theorem runCommand_variant {w : Word} {s t : State} (h : runCommand w s = .next t) :
    (t.ctx.variant = s.ctx.variant ∧ t.ctx.valid = s.ctx.valid) ∨
      ∃ v, decode w = .ok (.init v) ∧ t.ctx.variant = v := by
  cases hd : decode w with
  | error e =>
    rw [runCommand_error hd] at h
    cases h
    exact .inl ⟨rfl, rfl⟩
  | ok i =>
    rw [runCommand_ok hd] at h
    by_cases hi : ∃ v, i = .init v
    · obtain ⟨v, rfl⟩ := hi
      rw [execInit_next] at h
      cases h
      exact .inr ⟨v, rfl, rfl⟩
    · exact .inl (exec_keeps_variant h (not_exists.mp hi))

/-- Settles O19: by the four things a step can do. -/
theorem onlyInitChangesTheVariant : Obligations.OnlyInitChangesTheVariant := by
  refine ⟨fun i s t h hi => exec_keeps_variant h hi, fun s t h => ?_⟩
  rcases step_cases h with ⟨hc, -⟩ | ⟨client, w, rest, hp, hrun⟩ | ⟨a, v, rest, -, -, rfl⟩ | ⟨rest, hp, rfl⟩
  · exact .inl (by rw [hc]; exact ⟨rfl, rfl⟩)
  · rcases runCommand_variant hrun with hkeep | ⟨v, hd, hv⟩
    · exact .inl hkeep
    · exact .inr (.inr ⟨client, w, rest, v, hp, hd, hv⟩)
  · exact .inl ⟨rfl, rfl⟩
  · exact .inr (.inl ⟨rest, hp, rfl⟩)

/-! ### The snapshot of the decode side (R51) -/

/-- A property that every DECSTEP keeps is kept by the decode commands. -/
theorem exec_decode_keeps {P : Context → Prop} {i : Instr} {s t : State} (h : exec i s = .next t)
    (hi : i = .dec8 ∨ i = .decb) (hdec : ∀ b c, P c → P (decodeNext b c)) (hs : P s.ctx) : P t.ctx := by
  rcases hi with rfl | rfl
  · rcases execDec8_next h with ⟨-, rfl⟩ | ⟨-, -, rfl⟩
    · exact hs
    · rw [State.accept_ctx, State.setDout_ctx, State.setCtx_ctx]
      exact decodeContext_keeps hdec _ hs
  · rcases execDecb_next h with ⟨k, c, -, rfl⟩ | ⟨-, rfl⟩
    · exact hs
    · rw [State.accept_ctx]
      exact decodeBytes_keeps hdec _ _ _ hs

/-- Where the snapshot is the level, `blevel` at a transition is the average of the levels before and after, rounded
upward. -/
theorem shapedLevel_average {bit : Bool} {c : Context} (hf : c.filteredLastLevel = c.level) (hb : bit ≠ c.lastBit) :
    2 * shapedLevel bit c (advance bit c) - 1 ≤ c.level + (advance bit c).level ∧
      c.level + (advance bit c).level ≤ 2 * shapedLevel bit c (advance bit c) := by
  rw [shapedLevel, if_neg hb, hf, floorShift]
  omega

/-- Settles O42: DECSTEP writes the new level into the snapshot, and ENCSTEP does not: sample 1 on a fresh context
raises the level to 1. -/
theorem decodeKeepsTheSnapshot : Obligations.DecodeKeepsTheSnapshot :=
  ⟨fun s v => ⟨_, execInit_next v s, rfl⟩,
    fun i s t hi hs h =>
      exec_decode_keeps (P := fun c => c.filteredLastLevel = c.level) h hi (fun _ _ _ => rfl) hs,
    ⟨1, Context.fresh .modern, rfl, by decide⟩,
    fun _ _ => shapedLevel_average⟩

end Sys2Proof.Machine

/-! ## Register accesses (10_state.md R28 to R41, 60_exceptions.md R141, 70_reset_and_hazards.md R164) -/

namespace Sys2Proof.Machine

/-- A step of an unmarked state with an action waiting performs it, whatever BUSY is. -/
theorem step_performs {s : State} {a : HostAction} {rest : List HostAction} (hm : s.refusedMark = none)
    (hp : s.pending = a :: rest) : step s = perform a (s.setPending rest) := by
  simp [step, hostStep, hm, hp]

theorem regAt_eq_none {offset : BitVec 8} (h : ∀ r : Reg, r.offset ≠ offset) : regAt offset = none := by
  cases hr : regAt offset with
  | none => rfl
  | some r => exact absurd (regAt_offset hr) (h r)

@[simp] theorem readOffset_self (s : State) (r : Reg) : readOffset s r.offset = readRegister s r := by
  simp [readOffset]

/-! ### Writes -/

/-- A write of a register other than CMD that nothing stands in the way of. -/
theorem step_writeReg {s : State} {client : Client} {r : Reg} {v : Word} {rest : List HostAction} (hr : r ≠ .cmd)
    (h : Awaits s (.writeReg client 32 r.offset v) rest) :
    step s = .next (writeRegister ((s.setPending rest).setIssuer client) v r) := by
  have hl : accessLegal 32 r.offset = true := by cases r <;> decide
  rw [step_of_awaits h]
  simp only [perform, performWrite, hl, State.setPending_status, h.2.2, regAt_self]
  cases r with
  | cmd => exact absurd rfl hr
  | _ => rfl

/-- A write of a reserved offset changes nothing of the block. -/
theorem step_writeReserved {s : State} {client : Client} {offset : BitVec 8} {v : Word} {rest : List HostAction}
    (hr : regAt offset = none) (h4 : offset.toNat % 4 = 0) (h : Awaits s (.writeReg client 32 offset v) rest) :
    step s = .next ((s.setPending rest).setIssuer client) := by
  rw [step_of_awaits h]
  simp [perform, performWrite, (accessLegal_iff 32 offset).mpr ⟨rfl, h4⟩, h.2.2, hr]

/-- The RW registers that a host write changes and that run no command: the data input and the operands. -/
def Reg.plain : List Reg :=
  [.dinLo, .dinHi, .inBase, .inLen, .inOff, .outBase, .outLen, .outOff, .count]

/-- A plain register reads back what was written. -/
theorem readRegister_writeRegister_self {r : Reg} (hr : r ∈ Reg.plain) (s : State) (v : Word) :
    readRegister (writeRegister s v r) r = v := by
  fin_cases hr <;> rfl

/-- A write of one register leaves what every other one reads (R41). -/
theorem readRegister_writeRegister_of_ne {r other : Reg} (h : other ≠ r) (s : State) (v : Word) :
    readRegister (writeRegister s v r) other = readRegister s other := by
  cases r with
  | cmd | dinLo | dinHi | inBase | inLen | inOff | outBase | outLen | outOff | count =>
    cases other <;> first | rfl | exact absurd rfl h
  | _ => rfl

theorem readOffset_writeRegister_of_ne {r : Reg} {other : BitVec 8} (h : other ≠ r.offset) (s : State) (v : Word) :
    readOffset (writeRegister s v r) other = readOffset s other := by
  unfold readOffset
  cases hr : regAt other with
  | none => rfl
  | some r' =>
    refine readRegister_writeRegister_of_ne (fun he => h ?_) s v
    rw [← regAt_offset hr, he]

/-- The pending actions and the issuing client are no register. -/
theorem readOffset_access (s : State) (rest : List HostAction) (client : Client) (offset : BitVec 8) :
    readOffset ((s.setPending rest).setIssuer client) offset = readOffset s offset := by
  unfold readOffset
  cases regAt offset with
  | none => rfl
  | some r => cases r <;> rfl

theorem writeRegister_cmd {r : Reg} (hr : r ≠ .cmd) (s : State) (v : Word) : (writeRegister s v r).cmd = s.cmd := by
  cases r with
  | cmd => exact absurd rfl hr
  | _ => rfl

/-- The offsets of DIN and the operand registers in R28 are those of the plain registers. -/
theorem plain_of_offset {offset : BitVec 8}
    (h : offset ∈ [0x08#8, 0x0C#8, 0x18#8, 0x1C#8, 0x20#8, 0x24#8, 0x28#8, 0x2C#8, 0x30#8]) :
    ∃ r ∈ Reg.plain, r.offset = offset :=
  List.mem_map.mp (show offset ∈ Reg.plain.map Reg.offset from h)

/-- Settles O6: the write of a plain register, with the frame that `writeRegister` has. -/
theorem plainRegisterWrite : Obligations.PlainRegisterWrite := by
  intro s client value rest offset h ho
  obtain ⟨r, hr, rfl⟩ := plain_of_offset ho
  have hcmd : r ≠ .cmd := fun he => absurd (he ▸ hr) (by decide)
  refine ⟨_, step_writeReg hcmd h, ?_, fun other hne => ?_, ?_⟩
  · rw [readOffset_self, readRegister_writeRegister_self hr]
  · rw [readOffset_writeRegister_of_ne hne, readOffset_access]
  · have hf := writeRegister_frame ((s.setPending rest).setIssuer client) value r
    rw [writeRegister_cmd hcmd] at hf
    exact hf

/-- STATUS, DOUT and every register from 0x34 up ignore a write (R28). -/
theorem writeRegister_readOnly {r : Reg}
    (h : r.offset.toNat = 0x04 ∨ r.offset.toNat = 0x10 ∨ r.offset.toNat = 0x14 ∨ 0x34 ≤ r.offset.toNat) (s : State)
    (v : Word) : writeRegister s v r = s := by
  cases r with
  | cmd | dinLo | dinHi | inBase | inLen | inOff | outBase | outLen | outOff | count => exact absurd h (by decide)
  | _ => rfl

/-- No register stands at 0x34 to 0x3C or from 0x5C up (R28). -/
theorem regAt_reserved {offset : BitVec 8}
    (h : (0x34 ≤ offset.toNat ∧ offset.toNat ≤ 0x3C) ∨ 0x5C ≤ offset.toNat) : regAt offset = none :=
  regAt_eq_none fun r hr => by
    subst hr
    cases r <;> exact absurd h (by decide)

/-- Settles O7: such an offset has no register or one that ignores the write; a read there finds none. -/
theorem readOnlyAndReservedOffsets : Obligations.ReadOnlyAndReservedOffsets := by
  refine fun s client value rest offset => ⟨fun h h4 ho => ?_, fun h h4 ho => ?_⟩
  · cases hr : regAt offset with
    | none => exact step_writeReserved hr h4 h
    | some r =>
      obtain rfl := regAt_offset hr
      have hcmd : r ≠ .cmd := fun he => absurd (he ▸ ho) (by decide)
      rw [step_writeReg hcmd h, writeRegister_readOnly ho]
      rfl
  · rw [step_readReg h h4, readOffset, regAt_reserved ho]

/-! ### Reads -/

/-- Settles O54: a read returns the register at the offset. -/
theorem registerReads : Obligations.RegisterReads := by
  intro s client rest offset h ho
  have h4 : offset.toNat % 4 = 0 :=
    (show ∀ o ∈ [0x00#8, 0x08#8, 0x0C#8, 0x10#8, 0x14#8, 0x18#8, 0x1C#8, 0x20#8, 0x24#8, 0x28#8, 0x2C#8, 0x30#8],
      o.toNat % 4 = 0 by decide) offset ho
  refine ⟨readOffset s offset, step_readReg h h4, ?_, ?_, ?_, ?_, ?_, ?_, ?_, ?_, ?_, ?_, ?_, ?_⟩ <;>
  · rintro rfl
    rfl

/-! ### Accesses while BUSY = 1 -/

theorem performWrite_busy {s : State} (hb : s.status.busy = true) {offset : BitVec 8} (h4 : offset.toNat % 4 = 0)
    (client : Client) (v : Word) : performWrite client 32 offset v s = .refused .busy := by
  simp [performWrite, (accessLegal_iff 32 offset).mpr ⟨rfl, h4⟩, hb]

theorem performRead_busy {s : State} (hb : s.status.busy = true) {offset : BitVec 8} (h4 : offset.toNat % 4 = 0)
    (hs : offset ≠ Reg.status.offset) (client : Client) : performRead client 32 offset s = .refused .busy := by
  simp [performRead, (accessLegal_iff 32 offset).mpr ⟨rfl, h4⟩, hb, hs]

/-- STATUS reads back whatever BUSY is. -/
theorem performRead_status (s : State) (client : Client) :
    performRead client 32 Reg.status.offset s = .next ((s.setIssuer client).logRead s.status.toWord) := by
  have hl : accessLegal 32 Reg.status.offset = true := by decide
  simp [performRead, hl, readRegister]

theorem performReset_busy {s : State} (hb : s.status.busy = true) : performReset s = .refused .busy := by
  simp [performReset, hb]

/-- While BUSY = 1 an access to a byte of the command's buffers is refused before RAM is looked at. -/
theorem withMemory_busy {s : State} (hb : s.status.busy = true) {a : Nat} (ha : a < 2 ^ 32)
    (hbuf : s.inCommandBuffers a = true) (next : State) : s.withMemory a next = .refused .busy := by
  have hlt : ¬ a ≥ Config.memTop := Nat.not_le.mpr ha
  simp [State.withMemory, hlt, hb, hbuf]

/-- With ENCB or DECB in CMD the buffers are the two ranges of R54. -/
theorem inCommandBuffers_of_mem {s : State} {a : Nat} (hc : s.cmd = 0x4#32 ∨ s.cmd = 0x5#32)
    (h : (s.inBase.toNat ≤ a ∧ a < s.inBase.toNat + s.inLen.toNat) ∨
      (s.outBase.toNat ≤ a ∧ a < s.outBase.toNat + s.outLen.toNat)) : s.inCommandBuffers a = true := by
  have hu : usesBuffers s.cmd = true := by
    rcases hc with hc | hc <;> rw [hc] <;> decide
  simpa [State.inCommandBuffers, hu] using h

/-- Bit 8 of the STATUS word is BUSY (R30). -/
theorem Status.toWord_busy (t : Status) : t.toWord.getLsbD 8 = t.busy := by
  simp only [Status.toWord, BitVec.getLsbD_append]
  simp

/-- Settles O10: access by access. -/
theorem busyRefusesHostAccess : Obligations.BusyRefusesHostAccess := by
  intro s client offset value rest hm hb h4
  refine ⟨fun hp => ?_, fun hp ho => ?_, fun hp => ?_, fun a v hp ha hc hbuf => ?_, fun a hp ha hc hbuf => ?_,
    fun hp => ?_⟩ <;> rw [step_performs hm hp]
  · exact performWrite_busy (s := s.setPending rest) hb h4 client value
  · exact performRead_busy (s := s.setPending rest) hb h4 ho client
  · exact performReset_busy (s := s.setPending rest) hb
  · exact withMemory_busy (s := s.setPending rest) hb ha (inCommandBuffers_of_mem hc hbuf) _
  · exact withMemory_busy (s := s.setPending rest) hb ha (inCommandBuffers_of_mem hc hbuf) _
  · exact ⟨s.status.toWord, by rw [Status.toWord_busy, hb], performRead_status (s.setPending rest) client⟩

end Sys2Proof.Machine

/-! ## The users of a context (00_scope.md R26, 60_exceptions.md R141, R163; log entry 6) -/

namespace Sys2Proof.Machine

/-- What a command that answers a next state records: INIT its own client alone, a rejected command nothing, and
another accepted command, which was not Shared, its client last. -/
theorem exec_users {i : Instr} {s t : State} (h : exec i s = .next t) :
    ((∃ v, i = .init v) ∧ t.users = [s.issuer] ∧ t.status.kind = .ok) ∨
    ((∀ v, i ≠ .init v) ∧ t.users = s.users ∧ t.status.kind ≠ .ok) ∨
    ((∀ v, i ≠ .init v) ∧ ¬ SharedClients s ∧ t.users = recordedUsers s.users s.issuer ∧ t.status.kind = .ok) := by
  cases i with
  | init v =>
    rw [execInit_next] at h
    cases h
    exact .inl ⟨⟨v, rfl⟩, rfl, rfl⟩
  | enc8 =>
    rcases execEnc8_next h with ⟨-, rfl⟩ | ⟨-, hs, rfl⟩
    · exact .inr (.inl ⟨nofun, rfl, by simp⟩)
    · exact .inr (.inr ⟨nofun, hs, by simp⟩)
  | dec8 =>
    rcases execDec8_next h with ⟨-, rfl⟩ | ⟨-, hs, rfl⟩
    · exact .inr (.inl ⟨nofun, rfl, by simp⟩)
    · exact .inr (.inr ⟨nofun, hs, by simp⟩)
  | encb =>
    rcases execEncb_next h with ⟨k, c, hk, rfl⟩ | ⟨⟨-, -, -, -, -, -, hs⟩, rfl⟩
    · exact .inr (.inl ⟨nofun, rfl, by rcases hk with ⟨rfl, -⟩ | ⟨rfl, -⟩ <;> simp⟩)
    · rw [encodeGroups_eq]
      exact .inr (.inr ⟨nofun, hs, by simp⟩)
  | decb =>
    rcases execDecb_next h with ⟨k, c, hk, rfl⟩ | ⟨⟨-, -, -, -, -, -, hs⟩, rfl⟩
    · exact .inr (.inl ⟨nofun, rfl, by rcases hk with ⟨rfl, -⟩ | ⟨rfl, -⟩ <;> simp⟩)
    · rw [decodeBytes_eq]
      exact .inr (.inr ⟨nofun, hs, by simp⟩)

theorem exec_issuer {i : Instr} {s t : State} (h : exec i s = .next t) : t.issuer = s.issuer := by
  rw [exec_frame h]

/-- Settles O55: the three ways a command records its client. -/
theorem contextUsersAreRecorded : Obligations.ContextUsersAreRecorded := by
  intro i s t h
  rcases exec_users h with ⟨⟨v, rfl⟩, hu, hk⟩ | ⟨hi, hu, hk⟩ | ⟨hi, hs, hu, hk⟩
  · exact ⟨fun _ => hu, fun hne => absurd rfl (hne v), fun hne => absurd hk hne⟩
  · exact ⟨fun ⟨v, hv⟩ => absurd hv (hi v), fun _ hok => absurd hok hk, fun _ => hu⟩
  · refine ⟨fun ⟨v, hv⟩ => absurd hv (hi v), fun _ _ => ⟨?_, ?_, not_shared_of_recorded hs hu (exec_issuer h)⟩,
      fun hne => absurd hk hne⟩
    · rw [hu, recordedUsers_getLast?]
    · exact fun u => hu ▸ mem_recordedUsers s.users s.issuer u

/-- A buffer command whose other checks have all passed is refused on a shared context. -/
theorem bufferCommand_shared {s : State} (hs : SharedClients s) (hv : s.ctx.valid = true) {bad : Bool}
    {nin nout : Int} (hn : bad = false → 0 ≤ nin ∧ 0 ≤ nout) (hb : bad = false) (hi : ¬ InputOutOfBounds s nin)
    (ho : ¬ OutputOutOfBounds s nout) (hov : ¬ RangesOverlap s nin nout) (hun : ¬ SomeUnbacked s nin nout)
    (run : Nat → Nat → State → State) : bufferCommand bad nin nout run s = .refused .shared := by
  obtain ⟨-, -, -, hrest⟩ := bufferCommand_cases hv bad hn run
  obtain ⟨-, -, hshared, -⟩ := hrest hb hi ho
  exact hshared hov hun hs

/-- Settles O49: the gate of the context passes, and the Shared gate, the last, does not. -/
theorem sharedContextIsRefused : Obligations.SharedContextIsRefused := by
  intro s hs hv
  refine ⟨?_, ?_, fun hc hi ho h1 h2 => ?_, fun hc hi ho h1 h2 => ?_⟩
  · rw [exec, execEnc8, State.withContext_valid hv, State.unlessShared_of_shared hs]
  · rw [exec, execDec8, State.withContext_valid hv, State.unlessShared_of_shared hs]
  · have hb := Bool.eq_false_iff.mpr ((encodeCountBad_iff s).not.mpr hc)
    exact bufferCommand_shared hs hv encodeCounts_nonneg hb hi ho h1 h2 _
  · have hb := Bool.eq_false_iff.mpr ((decodeCountBad_iff s).not.mpr hc)
    exact bufferCommand_shared hs hv decodeCounts_nonneg hb hi ho h1 h2 _

/-! ### Where the Shared refusal comes from -/

theorem bufferCommand_ne_shared {s : State} (hs : ¬ SharedClients s) {bad : Bool} {nin nout : Int}
    {run : Nat → Nat → State → State} : bufferCommand bad nin nout run s ≠ .refused .shared := by
  simp only [bufferCommand, State.withContext, State.unlessShared_of_not hs]
  split
  · split
    · split
      · simp
      · split <;> simp
    · simp
  · simp

/-- No command is refused Shared unless its client shares the context. -/
theorem exec_ne_shared {s : State} (hs : ¬ SharedClients s) (i : Instr) : exec i s ≠ .refused .shared := by
  cases i with
  | init v => simp [execInit_next]
  | enc8 =>
    rw [exec, execEnc8, State.withContext, State.unlessShared_of_not hs]
    split <;> simp
  | dec8 =>
    rw [exec, execDec8, State.withContext, State.unlessShared_of_not hs]
    split <;> simp
  | encb => exact bufferCommand_ne_shared hs
  | decb => exact bufferCommand_ne_shared hs

theorem runCommand_ne_shared {s : State} (hs : ¬ SharedClients s) (w : Word) :
    runCommand w s ≠ .refused .shared := by
  cases hd : decode w with
  | ok i =>
    rw [runCommand_ok hd]
    exact exec_ne_shared hs i
  | error e => simp [runCommand_error hd]

theorem withMemory_ne_shared (s next : State) (a : Nat) : s.withMemory a next ≠ .refused .shared := by
  rw [State.withMemory]
  split
  · simp
  · split
    · simp
    · split <;> simp

/-- Only a write of CMD can be refused Shared, and then its command is. -/
theorem perform_shared {a : HostAction} {s : State} (h : perform a s = .refused .shared) :
    ∃ client w, a = writeCmd client w ∧ runCommand w ((s.setIssuer client).setCmd w) = .refused .shared := by
  cases a with
  | writeReg client width offset v =>
    simp only [perform, performWrite] at h
    split at h
    · cases h
    next hl =>
    split at h
    · cases h
    split at h
    · cases h
    next hr =>
      obtain rfl := regAt_offset hr
      obtain ⟨rfl, -⟩ := (accessLegal_iff width Reg.cmd.offset).mp (by simpa using hl)
      exact ⟨client, v, rfl, h⟩
    · cases h
  | readReg client width offset =>
    simp only [perform, performRead] at h
    split at h
    · cases h
    · split at h <;> cases h
  | storeMem a v => exact absurd h (withMemory_ne_shared _ _ _)
  | loadMem a => exact absurd h (withMemory_ne_shared _ _ _)
  | reset =>
    simp only [perform, performReset] at h
    split at h <;> cases h

/-! ### The coming actions -/

theorem runCommand_pending {w : Word} {s t : State} (h : runCommand w s = .next t) : t.pending = s.pending := by
  cases hd : decode w with
  | ok i =>
    rw [runCommand_ok hd] at h
    rw [exec_frame h]
  | error e =>
    rw [runCommand_error hd] at h
    cases h
    rfl

theorem withMemory_next {s next t : State} {a : Nat} (h : s.withMemory a next = .next t) : t = next := by
  rw [State.withMemory] at h
  split at h
  · cases h
  · split at h
    · cases h
    · split at h <;> cases h
      rfl

/-- No action changes the actions that come after it. -/
theorem perform_pending {a : HostAction} {s t : State} (h : perform a s = .next t) : t.pending = s.pending := by
  cases a with
  | writeReg client width offset v =>
    simp only [perform, performWrite] at h
    split at h
    · cases h
    split at h
    · cases h
    split at h
    · cases h
      rfl
    · exact runCommand_pending (s := (s.setIssuer client).setCmd v) h
    · cases h
      rw [writeRegister_frame]
      rfl
  | readReg client width offset =>
    simp only [perform, performRead] at h
    split at h
    · cases h
    · split at h <;> cases h
      rfl
  | storeMem a v => rw [withMemory_next h]; rfl
  | loadMem a => rw [withMemory_next h]
  | reset =>
    simp only [perform, performReset] at h
    split at h <;> cases h
    rfl

/-- A step takes the first coming action and leaves the others. -/
theorem step_pending {s t : State} (h : step s = .next t) : t.pending = s.pending.tail := by
  obtain ⟨-, ⟨hp, rfl⟩ | ⟨a, rest, hp, ha⟩⟩ := step_next h
  · rw [hp, List.tail_nil]
  · rw [perform_pending ha, hp, List.tail_cons, State.setPending_pending]

/-! ### One host alone -/

/-- A command of host `h` on a context that `h` alone uses leaves it so. -/
theorem runCommand_users_of_host {h : Nat} {w : Word} {s t : State} (hrun : runCommand w s = .next t)
    (hi : s.issuer.host = h) (hu : ∀ u ∈ s.users, u.host = h) : ∀ u ∈ t.users, u.host = h := by
  cases hd : decode w with
  | error e =>
    rw [runCommand_error hd] at hrun
    cases hrun
    exact hu
  | ok i =>
    rw [runCommand_ok hd] at hrun
    rcases exec_users hrun with ⟨-, ht, -⟩ | ⟨-, ht, -⟩ | ⟨-, -, ht, -⟩ <;> rw [ht]
    · simpa using hi
    · exact hu
    · intro u hm
      rcases (mem_recordedUsers _ _ _).mp hm with hm | rfl
      · exact hu u hm
      · exact hi

theorem step_users_of_host {h : Nat} {s t : State} (hs : SingleHost h s) (hstep : step s = .next t) :
    ∀ u ∈ t.users, u.host = h := by
  obtain ⟨hpend, hu⟩ := hs
  rcases step_cases hstep with
    ⟨-, -, -, -, ht⟩ | ⟨client, w, rest, hp, hrun⟩ | ⟨a, v, rest, -, -, rfl⟩ | ⟨rest, -, rfl⟩
  · rw [ht]
    exact hu
  · exact runCommand_users_of_host hrun (hpend (writeCmd client w) (by simp [hp])) hu
  · exact hu
  · simp [State.reset]

/-- Settles O17: the refusal could come only from a command, whose client is the one host of the context's users. -/
theorem singleHostIsNeverRefusedAsShared : Obligations.SingleHostIsNeverRefusedAsShared := by
  intro h s hs hm
  refine ⟨fun hstep => ?_, fun t hstep => ⟨fun a ha => ?_, step_users_of_host hs hstep⟩⟩
  · obtain ⟨hpend, hu⟩ := hs
    cases hp : s.pending with
    | nil => simp [step, hostStep, hm, hp] at hstep
    | cons a rest =>
      rw [step_performs hm hp] at hstep
      obtain ⟨client, w, rfl, hrun⟩ := perform_shared hstep
      have hc : client.host = h := hpend (writeCmd client w) (by simp [hp])
      exact runCommand_ne_shared (s := ((s.setPending rest).setIssuer client).setCmd w)
        (not_shared_of_one_host fun u hmem => (hu u hmem).trans hc.symm) w hrun
  · rw [step_pending hstep] at ha
    exact hs.1 a (List.mem_of_mem_tail ha)

end Sys2Proof.Machine

/-! ## A command is a function of its inputs (10_state.md R52)

The checks read the same registers in both states, so both take the same branch; the loops of an accepted command read
input bytes that agree, and write the same bytes to the same range. -/

namespace Sys2Proof.Machine

/-- The two states agree on what a command may read, but for memory. -/
structure SameInputs (s u : State) : Prop where
  ctx : s.ctx = u.ctx
  dinLo : s.dinLo = u.dinLo
  dinHi : s.dinHi = u.dinHi
  inBase : s.inBase = u.inBase
  inLen : s.inLen = u.inLen
  inOff : s.inOff = u.inOff
  outBase : s.outBase = u.outBase
  outLen : s.outLen = u.outLen
  outOff : s.outOff = u.outOff
  count : s.count = u.count
  ram : s.ram = u.ram
  shared : SharedClients s ↔ SharedClients u

/-- Two next states have equal contexts, and each byte is as it was in both or equal in both. -/
abbrev WrittenAlike (s u t t' : State) : Prop :=
  t.ctx = t'.ctx ∧
    ∀ a, (t.mem.read a = s.mem.read a ∧ t'.mem.read a = u.mem.read a) ∨ t.mem.read a = t'.mem.read a

/-- A command answers two states alike: R52's conclusion. -/
abbrev AnswersAlike (i : Instr) (s u : State) : Prop :=
  (∃ t t', exec i s = .next t ∧ exec i u = .next t' ∧ t.ctx = t'.ctx ∧ t.status = t'.status ∧
    ((i = .enc8 ∨ i = .dec8) → t.status.kind = .ok → t.doutLo = t'.doutLo ∧ t.doutHi = t'.doutHi) ∧
    ∀ a, (t.mem.read a = s.mem.read a ∧ t'.mem.read a = u.mem.read a) ∨ t.mem.read a = t'.mem.read a) ∨
  ∃ r, exec i s = .refused r ∧ exec i u = .refused r

/-- The same rejection answers two states of one context alike. -/
theorem answersAlike_of_raise {i : Instr} {s u : State} {k : Kind} {c : Cause} (hc : s.ctx = u.ctx) (hk : k ≠ .ok)
    (hs : exec i s = .next (s.raise k c)) (hu : exec i u = .next (u.raise k c)) : AnswersAlike i s u :=
  .inl ⟨_, _, hs, hu, hc, rfl, fun _ hok => absurd hok hk, fun _ => .inl ⟨rfl, rfl⟩⟩

namespace SameInputs

variable {s u : State}

theorem bufferOperands (h : SameInputs s u) : s.bufferOperands = u.bufferOperands := by
  rw [State.bufferOperands, h.inBase, h.inLen, h.inOff, h.outBase, h.outLen, h.outOff, h.count]
  rfl

theorem inAddr (h : SameInputs s u) : s.inAddr = u.inAddr := by rw [State.inAddr, h.bufferOperands, State.inAddr]

theorem outAddr (h : SameInputs s u) : s.outAddr = u.outAddr := by
  rw [State.outAddr, h.bufferOperands, State.outAddr]

theorem backedRange (h : SameInputs s u) (a n : Nat) : s.backedRange a n = u.backedRange a n := by
  simp only [State.backedRange, State.backed, h.ram]

theorem dinSamples (h : SameInputs s u) : s.dinSamples = u.dinSamples := by
  simp only [State.dinSamples, State.din, h.dinLo, h.dinHi]

theorem dinBits (h : SameInputs s u) : s.dinBits = u.dinBits := by rw [State.dinBits, h.dinLo, State.dinBits]

theorem sharedUse (h : SameInputs s u) : s.sharedUse = u.sharedUse :=
  Bool.eq_iff_iff.mpr (by rw [State.sharedUse_iff, State.sharedUse_iff, h.shared])

end SameInputs

/-- ENC8 and DEC8 have one shape: gated by the context and by Shared, they write the context and DOUT. -/
theorem answersAlike_of_group {i : Instr} {s u : State} (h : SameInputs s u) {f : State → Context}
    {g : State → DWord}
    (he : ∀ s, exec i s = s.withContext fun s => s.unlessShared fun s => (s.setCtx (f s)).setDout (g s))
    (hf : f s = f u) (hg : g s = g u) : AnswersAlike i s u := by
  have hs := he s
  have hu := he u
  cases hv : s.ctx.valid with
  | false =>
    have hv' : u.ctx.valid = false := h.ctx ▸ hv
    rw [State.withContext_invalid hv] at hs
    rw [State.withContext_invalid hv'] at hu
    exact answersAlike_of_raise h.ctx (k := .noContext) nofun hs hu
  | true =>
    have hv' : u.ctx.valid = true := h.ctx ▸ hv
    rw [State.withContext_valid hv] at hs
    rw [State.withContext_valid hv'] at hu
    by_cases hsh : SharedClients s
    · rw [State.unlessShared_of_shared hsh] at hs
      rw [State.unlessShared_of_shared (h.shared.mp hsh)] at hu
      exact .inr ⟨_, hs, hu⟩
    · rw [State.unlessShared_of_not hsh] at hs
      rw [State.unlessShared_of_not (h.shared.not.mp hsh)] at hu
      exact .inl ⟨_, _, hs, hu, hf, rfl, fun _ _ => by simp [hg], fun _ => .inl ⟨rfl, rfl⟩⟩

/-- A buffer command takes one branch on both states: the same rejection, the same refusal, or its execution from the
same addresses. -/
theorem bufferCommand_alike {s u : State} (h : SameInputs s u) (bad : Bool) (nin nout : Int)
    (run : Nat → Nat → State → State) :
    (∃ k c, k ≠ .ok ∧ bufferCommand bad nin nout run s = .next (s.raise k c) ∧
      bufferCommand bad nin nout run u = .next (u.raise k c)) ∨
    (∃ r, bufferCommand bad nin nout run s = .refused r ∧ bufferCommand bad nin nout run u = .refused r) ∨
    (bufferCommand bad nin nout run s = .next (run s.inAddr s.outAddr s).accept ∧
      bufferCommand bad nin nout run u = .next (run s.inAddr s.outAddr u).accept) := by
  simp only [bufferCommand, State.withContext, State.unlessShared, ← h.ctx, ← h.bufferOperands, ← h.inAddr, ← h.outAddr,
    ← h.backedRange, ← h.sharedUse]
  split
  · split
    · split
      · exact .inr (.inl ⟨_, rfl, rfl⟩)
      · split
        · exact .inr (.inl ⟨_, rfl, rfl⟩)
        · split
          · exact .inr (.inl ⟨_, rfl, rfl⟩)
          · exact .inr (.inr ⟨rfl, rfl⟩)
    · exact .inl ⟨.invalidArgument, _, nofun, rfl, rfl⟩
  · exact .inl ⟨.noContext, _, nofun, rfl, rfl⟩

/-- An accepted buffer command answers alike if its executions write alike. -/
theorem answersAlike_of_buffer {i : Instr} {s u : State} {bad : Bool} {nin nout : Int}
    {run : Nat → Nat → State → State} (h : SameInputs s u) (hi : i = .encb ∨ i = .decb)
    (hs : exec i s = bufferCommand bad nin nout run s) (hu : exec i u = bufferCommand bad nin nout run u)
    (hrun : exec i s = .next (run s.inAddr s.outAddr s).accept →
      WrittenAlike s u (run s.inAddr s.outAddr s) (run s.inAddr s.outAddr u)) : AnswersAlike i s u := by
  rcases bufferCommand_alike h bad nin nout run with ⟨k, c, hk, h1, h2⟩ | ⟨r, h1, h2⟩ | ⟨h1, h2⟩
  · exact answersAlike_of_raise h.ctx hk (hs.trans h1) (hu.trans h2)
  · exact .inr ⟨r, hs.trans h1, hu.trans h2⟩
  · obtain ⟨hc, hm⟩ := hrun (hs.trans h1)
    refine .inl ⟨_, _, hs.trans h1, hu.trans h2, hc, rfl, fun hg => ?_, hm⟩
    rcases hi with rfl | rfl <;> simp at hg

/-- The encode loop on two states with one context and the same bytes in the input range, apart from the output range. -/
theorem encodeGroups_alike {s u : State} (hs : s.mem.wf) (hu : u.mem.wf) (hc : s.ctx = u.ctx) {k inA outA : Nat}
    (hd : ∀ x, inA ≤ x → x < inA + 8 * k → outA ≤ x → x < outA + k → False)
    (hin : ∀ j < 8 * k, s.mem.read (inA + j) = u.mem.read (inA + j)) :
    WrittenAlike s u (encodeGroups k inA outA s) (encodeGroups k inA outA u) := by
  obtain ⟨hcs, hgs, hos⟩ := encodeGroups_spec hs k inA outA hd
  obtain ⟨hcu, hgu, hou⟩ := encodeGroups_spec hu k inA outA hd
  have hl : s.loadSamples inA (8 * k) = u.loadSamples inA (8 * k) := by
    rw [State.loadSamples, State.loadBytes_congr hin, State.loadSamples]
  refine ⟨by rw [hcs, hcu, hl, hc], fun a => ?_⟩
  by_cases ha : a < outA ∨ outA + k ≤ a
  · exact .inl ⟨hos a ha, hou a ha⟩
  · obtain ⟨g, rfl⟩ := Nat.exists_eq_add_of_le (show outA ≤ a by omega)
    exact .inr (by rw [hgs g (by omega), hgu g (by omega), hl, hc])

/-- The decode loop on two states with one context and the same bytes in the input range, apart from the output range. -/
theorem decodeBytes_alike {s u : State} (hs : s.mem.wf) (hu : u.mem.wf) (hc : s.ctx = u.ctx) {k inA outA : Nat}
    (hd : ∀ x, inA ≤ x → x < inA + k → outA ≤ x → x < outA + 8 * k → False)
    (hin : ∀ j < k, s.mem.read (inA + j) = u.mem.read (inA + j)) :
    WrittenAlike s u (decodeBytes k inA outA s) (decodeBytes k inA outA u) := by
  obtain ⟨hcs, hgs, hos⟩ := decodeBytes_spec hs k inA outA hd
  obtain ⟨hcu, hgu, hou⟩ := decodeBytes_spec hu k inA outA hd
  have hl : s.loadBits inA k = u.loadBits inA k := by
    rw [State.loadBits, State.loadBytes_congr hin, State.loadBits]
  refine ⟨by rw [hcs, hcu, hl, hc], fun a => ?_⟩
  by_cases ha : a < outA ∨ outA + 8 * k ≤ a
  · exact .inl ⟨hos a ha, hou a ha⟩
  · obtain ⟨g, rfl⟩ := Nat.exists_eq_add_of_le (show outA ≤ a by omega)
    exact .inr (by simp only [hgs g (by omega), hgu g (by omega), hl, hc])

/-- The bytes of the input range of the two states agree. -/
abbrev SameInputBytes (s u : State) : Prop :=
  ∀ k < s.count.toInt.toNat, s.mem.read (s.inAddr + k) = u.mem.read (s.inAddr + k)

theorem execEncb_alike {s u : State} (h : SameInputs s u) (hs : s.mem.wf) (hu : u.mem.wf)
    (hb : SameInputBytes s u) : AnswersAlike .encb s u := by
  refine answersAlike_of_buffer h (.inl rfl) (by rw [exec, execEncb]) (run := encodeGroups s.encodeOut.toNat) ?_ ?_
  · rw [exec, execEncb, State.encodeIn, State.encodeOut, ← h.bufferOperands]
    rfl
  · intro hn
    obtain ⟨ha, -⟩ := execEncb_ok hn rfl
    obtain ⟨h8, -⟩ := encodeAccepted_counts ha
    exact encodeGroups_alike hs hu h.ctx (encodeAccepted_disjoint ha) (h8 ▸ hb)

theorem execDecb_alike {s u : State} (h : SameInputs s u) (hs : s.mem.wf) (hu : u.mem.wf)
    (hb : SameInputBytes s u) : AnswersAlike .decb s u := by
  refine answersAlike_of_buffer h (.inr rfl) (by rw [exec, execDecb]) (run := decodeBytes s.decodeIn.toNat) ?_ ?_
  · rw [exec, execDecb, State.decodeIn, State.decodeOut, ← h.bufferOperands]
    rfl
  · intro hn
    obtain ⟨ha, -⟩ := execDecb_ok hn rfl
    exact decodeBytes_alike hs hu h.ctx (decodeAccepted_disjoint ha) hb

theorem exec_alike {i : Instr} {s u : State} (h : SameInputs s u) (hs : s.mem.wf) (hu : u.mem.wf)
    (hb : (i = .encb ∨ i = .decb) → SameInputBytes s u) : AnswersAlike i s u := by
  cases i with
  | init v =>
    exact .inl ⟨_, _, execInit_next v s, execInit_next v u, rfl, rfl, by simp, fun _ => .inl ⟨rfl, rfl⟩⟩
  | enc8 =>
    exact answersAlike_of_group h (f := fun s => encodeContext s.dinSamples s.ctx)
      (g := fun s => doutOfCode (encodeGroup s.dinSamples s.ctx)) (fun _ => rfl)
      (by rw [h.dinSamples, h.ctx]) (by rw [h.dinSamples, h.ctx])
  | dec8 =>
    exact answersAlike_of_group h (f := fun s => decodeContext s.dinBits s.ctx)
      (g := fun s => doutOfSamples (decodeSamples s.dinBits s.ctx)) (fun _ => rfl)
      (by rw [h.dinBits, h.ctx]) (by rw [h.dinBits, h.ctx])
  | encb => exact execEncb_alike h hs hu (hb (.inl rfl))
  | decb => exact execDecb_alike h hs hu (hb (.inr rfl))

/-- Settles O48: command by command. -/
theorem commandsAreFunctionsOfTheirInputs : Obligations.CommandsAreFunctionsOfTheirInputs := by
  intro i s u hs hu hctx hlo hhi hib hil hio hob hol hoo hn hram hsh hb
  exact exec_alike ⟨hctx, hlo, hhi, hib, hil, hio, hob, hol, hoo, hn, hram, hsh⟩ hs hu hb

end Sys2Proof.Machine

/-! ## Which accesses have a meaning (20_memory.md R54, R58, R60; 60_exceptions.md R141) -/

namespace Sys2Proof.Machine

/-! ### Register accesses -/

/-- An access of another width, or off a multiple of 4, is not a legal one. -/
theorem accessLegal_eq_false {width : Nat} {offset : BitVec 8} (h : width ≠ 32 ∨ offset.toNat % 4 ≠ 0) :
    accessLegal width offset = false := by
  rw [Bool.eq_false_iff, ne_eq, accessLegal_iff]
  tauto

/-- An illegal write is refused, whatever BUSY is. -/
theorem performWrite_illegal {width : Nat} {offset : BitVec 8} (h : accessLegal width offset = false) (client : Client)
    (v : Word) (s : State) : performWrite client width offset v s = .refused .badAccess := by
  simp [performWrite, h]

/-- An illegal read is refused, whatever BUSY is. -/
theorem performRead_illegal {width : Nat} {offset : BitVec 8} (h : accessLegal width offset = false) (client : Client)
    (s : State) : performRead client width offset s = .refused .badAccess := by
  simp [performRead, h]

/-- A legal write of anything but CMD takes a next state, whether or not a register stands at the offset. -/
theorem step_writeReg_next {s : State} {client : Client} {offset : BitVec 8} {v : Word} {rest : List HostAction}
    (h : Awaits s (.writeReg client 32 offset v) rest) (h4 : offset.toNat % 4 = 0) (h0 : offset ≠ Reg.cmd.offset) :
    ∃ t, step s = .next t := by
  cases hr : regAt offset with
  | none => exact ⟨_, step_writeReserved hr h4 h⟩
  | some r =>
    obtain rfl := regAt_offset hr
    have hcmd : r ≠ .cmd := fun he => h0 (congrArg Reg.offset he)
    exact ⟨_, step_writeReg hcmd h⟩

/-- Settles O5: the two illegal accesses, then the two legal ones. -/
theorem registerAccessWidthAndAlignment : Obligations.RegisterAccessWidthAndAlignment := by
  refine fun s client width offset value rest => ⟨fun h hbad => ?_, fun h hbad => ?_, fun h hw h4 h0 => ?_,
    fun h hw h4 => ?_⟩
  · rw [step_of_awaits h]
    exact performWrite_illegal (accessLegal_eq_false hbad) client value _
  · rw [step_of_awaits h]
    exact performRead_illegal (accessLegal_eq_false hbad) client _
  · subst hw
    exact step_writeReg_next h h4 h0
  · subst hw
    exact ⟨_, step_readReg h h4⟩

/-! ### The host's own accesses to memory -/

/-- An address outside the space faults before anything else is looked at. -/
theorem withMemory_outside {a : Nat} (ha : 2 ^ 32 ≤ a) (s next : State) :
    s.withMemory a next = .fault .noSuchAddress :=
  if_pos ha

/-- With BUSY = 0, RAM alone decides an access to an address of the space. -/
theorem withMemory_inSpace {s : State} (hb : s.status.busy = false) {a : Nat} (ha : a < 2 ^ 32) (next : State) :
    s.withMemory a next = if s.backed a then .next next else .refused .unbacked := by
  have hlt : ¬ a ≥ Config.memTop := Nat.not_le.mpr ha
  cases hr : s.backed a <;> simp [State.withMemory, hlt, hb, hr]

/-- The coming actions decide nothing about RAM. -/
@[simp] theorem State.setPending_backed (s : State) (p : List HostAction) (a : Nat) :
    (s.setPending p).backed a = s.backed a := rfl

/-- A store to an address of the space that nothing else stands in the way of takes its next state exactly in RAM. -/
theorem step_storeMem {s : State} {a : Nat} {v : Byte} {rest : List HostAction} (h : Awaits s (.storeMem a v) rest)
    (ha : a < 2 ^ 32) :
    step s = if s.backed a then .next ((s.setPending rest).storeByte a v) else .refused .unbacked := by
  obtain ⟨hp, hm, hb⟩ := h
  rw [step_performs hm hp, ← State.setPending_backed s rest]
  exact withMemory_inSpace (s := s.setPending rest) hb ha _

/-- Settles O11: outside the space, inside it without RAM, and in RAM, where the write changes its byte alone. -/
theorem hostStoreChangesOneByte : Obligations.HostStoreChangesOneByte := by
  refine fun s a v rest h => ⟨fun ha => ?_, fun ha hr => ?_, fun ha hr hwf => ?_⟩
  · rw [step_of_awaits h]
    exact withMemory_outside ha _ _
  · rw [step_storeMem h ha, if_neg (mt (State.backed_iff s a).mp hr)]
  · refine ⟨(s.setPending rest).storeByte a v, ?_, rfl, Memory.read_write hwf a v⟩
    rw [step_storeMem h ha, if_pos ((State.backed_iff s a).mpr hr)]

end Sys2Proof.Machine

/-! ## The command word (30_encoding.md R71 to R77) -/

namespace Sys2Proof

/-- The decoder reads every instruction back from its own word (R73, R75). -/
@[simp] theorem decode_encode (i : Instr) : decode (encode i) = .ok i := by
  cases i with
  | init v => exact (Laws.Command.init v).2.2
  | enc8 => exact Laws.Command.enc8.2.2
  | dec8 => exact Laws.Command.dec8.2.2
  | encb => exact Laws.Command.encb.2.2
  | decb => exact Laws.Command.decb.2.2

/-- The V bit of the variant that a V bit selects is that bit (R74). -/
@[simp] theorem bitOfVariant_variantOfBit (v : BitVec 1) : bitOfVariant (variantOfBit v) = v := by
  revert v
  decide

/-- An operation other than INIT is read only from fields that are its own, because it needs V = 0 (R76). -/
theorem eq_encodeFields_of_decodePlain {op : BitVec 4} {v : BitVec 1} {i j : Instr}
    (hop : encodeFields j = { op := op, v := 0#1, rsvd := 0#27 }) (h : decodePlain v j = .ok i) :
    { op := op, v := v, rsvd := 0#27 } = encodeFields i := by
  rw [decodePlain] at h
  split at h
  next hv =>
    cases h
    rw [hop, hv]
  · cases h

/-- The fields that decode to an instruction are the ones it encodes to: each branch of R75 fixes RSVD, OP and V. -/
theorem eq_encodeFields_of_decodeFields {f : CommandFields} {i : Instr} (h : decodeFields f = .ok i) :
    f = encodeFields i := by
  obtain ⟨op, v, rsvd⟩ := f
  simp only [decodeFields] at h
  split_ifs at h with hr hop hop hop hop hop
  all_goals obtain rfl : rsvd = 0#27 := not_not.mp hr
  all_goals subst hop
  · cases h
    rw [encodeFields, bitOfVariant_variantOfBit]
  all_goals exact eq_encodeFields_of_decodePlain rfl h

/-- A word decodes to an instruction exactly if it is that instruction's word (R71, R77). -/
theorem decode_eq_ok_iff {w : Word} {i : Instr} : decode w = .ok i ↔ w = encode i := by
  constructor
  · intro h
    rw [← CommandFields.toWord_ofWord w, eq_encodeFields_of_decodeFields h, encode]
  · rintro rfl
    exact decode_encode i

/-- Settles O2: the fields determine the word, and the instruction determines the fields. -/
theorem decodeIsEncodeInverted : Obligations.DecodeIsEncodeInverted :=
  fun _ _ _ => decode_eq_ok_iff

/-- Settles O1: each of the six words is an instruction's own. -/
theorem tableWordsDecode : Obligations.TableWordsDecode :=
  ⟨decode_encode (.init .modern), decode_encode (.init .legacy), decode_encode .enc8, decode_encode .dec8,
    decode_encode .encb, decode_encode .decb⟩

/-- The decoder accepts the six words of R73 and no other. -/
theorem decode_isOk_iff (w : Word) :
    (∃ i, decode w = .ok i) ↔ w.toNat ∈ [0x01, 0x11, 0x02, 0x03, 0x04, 0x05] := by
  simp only [decode_eq_ok_iff]
  constructor
  · rintro ⟨i, rfl⟩
    cases i with
    | init v => cases v <;> decide
    | _ => decide
  · intro h
    obtain ⟨i, hi⟩ : ∃ i, w.toNat = (encode i).toNat := by
      simp only [List.mem_cons, List.not_mem_nil, or_false] at h
      rcases h with h | h | h | h | h | h
      · exact ⟨.init .modern, h⟩
      · exact ⟨.init .legacy, h⟩
      · exact ⟨.enc8, h⟩
      · exact ⟨.dec8, h⟩
      · exact ⟨.encb, h⟩
      · exact ⟨.decb, h⟩
    exact ⟨i, BitVec.eq_of_toNat_eq hi⟩

/-- A word is rejected exactly if it is no instruction's. -/
theorem decode_isError_iff (w : Word) : (∃ e, decode w = .error e) ↔ ¬ ∃ i, decode w = .ok i := by
  cases decode w <;> simp

/-- R76's three conditions as numbers: RSVD, then OP, then V. -/
theorem decode_isError_iff_conditions (w : Word) :
    (∃ e, decode w = .error e) ↔
      (w.toNat / 32 ≠ 0 ∨ (w.toNat % 16 = 0 ∨ 6 ≤ w.toNat % 16) ∨
        ((2 ≤ w.toNat % 16 ∧ w.toNat % 16 ≤ 5) ∧ w.toNat / 16 % 2 = 1)) := by
  rw [decode_isError_iff, decode_isOk_iff]
  simp only [List.mem_cons, List.not_mem_nil, or_false]
  omega

end Sys2Proof

namespace Sys2Proof.Machine

/-- Settles O3: the illegal words as numbers, and the INVALID_COMMAND outcome of the step that writes one to CMD. -/
theorem illegalWordIsInvalidCommand : Obligations.IllegalWordIsInvalidCommand := by
  refine fun w => ⟨decode_isError_iff_conditions w, fun s client rest h hw => ?_⟩
  obtain ⟨e, he⟩ := (decode_isError_iff_conditions w).mpr hw
  rw [step_writeCmd h, runCommand_error he]
  rfl

/-! ## The STATUS word (R30, R84) -/

/-- The STATUS word as a number: BUSY at bit 8, CAUSE at bit 2, KIND at bit 0. -/
theorem Status.toWord_toNat (t : Status) :
    t.toWord.toNat = (if t.busy = true then 256 else 0) + 4 * (causeBits t.cause).toNat + (kindBits t.kind).toNat := by
  obtain ⟨k, c, b⟩ := t
  cases b <;> cases c <;> cases k <;> rfl

/-- The six words of R84's table are those of the legal STATUS values. -/
theorem Status.toWord_of_legal {t : Status} (h : StatusLegal t) :
    t.toWord ∈ [0x00#32, 0x05#32, 0x09#32, 0x0D#32, 0x02#32, 0x03#32] := by
  obtain ⟨k, c, b⟩ := t
  obtain ⟨rfl, hc⟩ := h
  cases k with
  | invalidArgument =>
    cases c with
    | none => exact absurd rfl (hc.mp rfl)
    | _ => decide
  | _ =>
    obtain rfl := hc.mpr nofun
    decide

/-- Settles O9: the read answers the STATUS word, whose number R84 gives. -/
theorem statusWordReads : Obligations.StatusWordReads := by
  intro s client rest hp hm
  refine ⟨s.status.toWord, ?_, ?_, fun ⟨_, _, hst, _⟩ => Status.toWord_of_legal hst⟩
  · rw [step_performs hm hp]
    exact performRead_status (s.setPending rest) client
  · rw [Status.toWord_toNat]
    congr 2
    · cases s.status.cause <;> rfl
    · cases s.status.kind <;> rfl

end Sys2Proof.Machine

/-! ## One group: ENC8 and DEC8 (30_encoding.md R78 to R82) -/

namespace Sys2Proof.Machine

/-- Without a context every command but INIT is NO_CONTEXT (R92, R135). -/
theorem exec_noContext {i : Instr} {s : State} (h : s.ctx.valid = false) (hi : ∀ v, i ≠ .init v) :
    exec i s = .next (s.raise .noContext .none) := by
  cases i with
  | init v => exact absurd rfl (hi v)
  | enc8 => rw [exec, execEnc8, State.withContext_invalid h]
  | dec8 => rw [exec, execDec8, State.withContext_invalid h]
  | encb => rw [exec, execEncb, bufferCommand, State.withContext_invalid h]
  | decb => rw [exec, execDecb, bufferCommand, State.withContext_invalid h]

/-! ### ENC8 -/

/-- The encoder's decision: above the level, or a tie at the top rail (R109). -/
theorem encodeBit_iff (x : Int) (c : Context) :
    encodeBit x c = true ↔ x > c.level ∨ (x = c.level ∧ c.level = 127) := by
  simp [encodeBit]

/-- Bit `j` of ENC8's result in DOUT_LO is bit `j` of the group (R80, R82). -/
theorem doutOfCode_lo_getLsbD {bs : List Bool} (h8 : bs.length = 8) {j : Nat} (h : j < bs.length) :
    ((doutOfCode (codeByte bs)).extractLsb' 0 32).getLsbD j = bs[j] := by
  have hj : j < 32 := by omega
  rw [doutOfCode_lo, BitVec.getLsbD_setWidth, codeByte_getLsbD h8 h, decide_eq_true hj, Bool.true_and]

/-- A code byte in DOUT_LO stays below 256 (R82). -/
theorem doutOfCode_lo_lt (c : Byte) : ((doutOfCode c).extractLsb' 0 32).toNat < 256 := by
  rw [doutOfCode_lo, BitVec.toNat_setWidth]
  exact lt_of_le_of_lt (Nat.mod_le _ _) c.isLt

/-- What an accepted group command writes: the context, DOUT, STATUS and the record of users. -/
theorem accept_setDout_setCtx (s : State) (c : Context) (d : DWord) :
    ((s.setCtx c).setDout d).accept = { s with
      ctx := c, doutLo := d.extractLsb' 0 32, doutHi := d.extractLsb' 32 32
      status := { kind := .ok, cause := .none, busy := false }, users := recordedUsers s.users s.issuer } := rfl

/-- Settles O27: the group's trace of contexts and bits, on the eight lanes of DIN. -/
theorem enc8EncodesAGroup : Obligations.Enc8EncodesAGroup := by
  refine ⟨fun s hv => exec_noContext hv nofun, fun s hv hs => ?_⟩
  obtain ⟨c, b, h0, hstep, hlast, hbits⟩ := encodeContext_trace s.dinSamples s.ctx
  refine ⟨_, c, b, execEnc8_accepted hv hs, h0, fun j hj => ?_, fun j hj => ?_, doutOfCode_lo_lt _, ?_⟩
  · have hlen : j < s.dinSamples.length := by rwa [dinSamples_length]
    obtain ⟨hb, hc⟩ := hstep j hlen
    rw [← laneOf_din s hj, ← dinSamples_getElem s hlen]
    exact ⟨by rw [hb, encodeBit_iff], hc⟩
  · have hlen : j < s.dinSamples.length := by rwa [dinSamples_length]
    rw [hbits j hlen]
    exact doutOfCode_lo_getLsbD (by simp) _
  · rw [accept_setDout_setCtx, doutOfCode_hi, ← hlast, dinSamples_length]

/-! ### DEC8 -/

/-- Settles O36: the byte's trace of contexts, on the bits of DIN_LO. -/
theorem dec8DecodesAByte : Obligations.Dec8DecodesAByte := by
  refine ⟨fun s hv => exec_noContext hv nofun, fun s hv hs => ?_⟩
  obtain ⟨c, h0, hstep, hlast, hbytes⟩ := decodeContext_trace s.dinBits s.ctx
  refine ⟨_, c, execDec8_accepted hv hs, h0, fun j hj => ?_, fun j hj => ?_, ?_⟩
  · have hlen : j < s.dinBits.length := by rwa [dinBits_length]
    rw [hstep j hlen, dinBits_getElem]
  · have hlen : j < s.dinBits.length := by rwa [dinBits_length]
    rw [accept_setDout_setCtx, ← laneOf_words _ hj, doutOfSamples_lane hj (by simpa using hj), hbytes j hlen]
  · rw [accept_setDout_setCtx, ← hlast, dinBits_length]

/-- DEC8's operand is the low byte of DIN_LO alone (R79). -/
theorem dinBits_congr {s u : State} (h : s.dinLo.extractLsb' 0 8 = u.dinLo.extractLsb' 0 8) :
    s.dinBits = u.dinBits := by
  rw [State.dinBits, h, State.dinBits]

/-- Settles O37: the gates do not read DIN, and the command reads the low byte of DIN_LO. -/
theorem dec8IgnoresTheOtherDinBits : Obligations.Dec8IgnoresTheOtherDinBits := by
  intro s t lo hi hlo h
  rcases execDec8_next h with ⟨hv, rfl⟩ | ⟨hv, hs, rfl⟩
  · exact exec_noContext (s := { s with dinLo := lo, dinHi := hi }) hv nofun
  · have hbits : State.dinBits { s with dinLo := lo, dinHi := hi } = s.dinBits := dinBits_congr hlo
    rw [execDec8_accepted (s := { s with dinLo := lo, dinHi := hi }) hv hs, hbits, accept_setDout_setCtx,
      accept_setDout_setCtx]

/-! ### The decoder follows the encoder (R106, R110, R125) -/

/-- The context with other values in the two fields that only the decode side writes. -/
def Context.withDecodeFields (c : Context) (filteredLastLevel lowPassLevel : Int) : Context :=
  { c with filteredLastLevel := filteredLastLevel, lowPassLevel := lowPassLevel }

theorem Context.withDecodeFields_self (c : Context) :
    c.withDecodeFields c.filteredLastLevel c.lowPassLevel = c := rfl

/-- DECSTEP is ADVANCE but for the decode fields, and ADVANCE does not read those (R107, R125). -/
theorem decodeNext_withDecodeFields (bit : Bool) (c : Context) (f p : Int) :
    ∃ f' p', decodeNext bit (c.withDecodeFields f p) = (advance bit c).withDecodeFields f' p' :=
  ⟨_, _, rfl⟩

/-- Decoding the bits of a run of ENCSTEPs from the context it started with ends in the context it ended with, but for
the decode fields before and after. -/
theorem decodeContext_encodeBits (xs : List Int) (c : Context) (f p : Int) :
    ∃ f' p', decodeContext (encodeBits xs c) (c.withDecodeFields f p) =
      (encodeContext xs c).withDecodeFields f' p' := by
  induction xs generalizing c f p with
  | nil => exact ⟨f, p, rfl⟩
  | cons x xs ih =>
    obtain ⟨f', p', hd⟩ := decodeNext_withDecodeFields (encodeBit x c) c f p
    rw [encodeBits, decodeContext, hd, encodeContext]
    exact ih (encodeNext x c) f' p'

/-- With ENC8's DOUT_LO in DIN_LO, DEC8's operand is the group's bits (R79, R80, R82). -/
theorem dinBits_of_code {s : State} {bs : List Bool} (h8 : bs.length = 8)
    (h : s.dinLo = (doutOfCode (codeByte bs)).extractLsb' 0 32) : s.dinBits = bs := by
  refine List.ext_getElem (by rw [dinBits_length, h8]) fun j h1 h2 => ?_
  rw [dinBits_getElem, h, doutOfCode_lo_getLsbD h8 h2]

/-- An accepted ENC8's context and code byte. -/
theorem execEnc8_ctx_doutLo {s t : State} (hv : s.ctx.valid = true) (h : exec .enc8 s = .next t) :
    t.ctx = encodeContext s.dinSamples s.ctx ∧
      t.doutLo = (doutOfCode (codeByte (encodeBits s.dinSamples s.ctx))).extractLsb' 0 32 := by
  rcases execEnc8_next h with ⟨hn, -⟩ | ⟨-, -, rfl⟩
  · simp [hv] at hn
  · exact ⟨rfl, rfl⟩

/-- An accepted DEC8's context. -/
theorem execDec8_ctx {s t : State} (hv : s.ctx.valid = true) (h : exec .dec8 s = .next t) :
    t.ctx = decodeContext s.dinBits s.ctx := by
  rcases execDec8_next h with ⟨hn, -⟩ | ⟨-, -, rfl⟩
  · simp [hv] at hn
  · rfl

/-- Settles O43: DEC8's bits are the group's, so both commands ran ADVANCE on them. -/
theorem decoderFollowsTheEncoder : Obligations.DecoderFollowsTheEncoder := by
  intro s hv hs
  obtain ⟨t, ht⟩ : ∃ t, exec .enc8 s = .next t := ⟨_, execEnc8_accepted hv hs⟩
  obtain ⟨htc, htd⟩ := execEnc8_ctx_doutLo hv ht
  obtain ⟨v, hvn⟩ : ∃ v, exec .dec8 { s with dinLo := t.doutLo } = .next v :=
    ⟨_, execDec8_accepted (s := { s with dinLo := t.doutLo }) hv hs⟩
  have hvc : v.ctx = decodeContext (encodeBits s.dinSamples s.ctx) s.ctx := by
    rw [execDec8_ctx (s := { s with dinLo := t.doutLo }) hv hvn, dinBits_of_code (by simp) htd]
  obtain ⟨f, p, hctx⟩ := decodeContext_encodeBits s.dinSamples s.ctx s.ctx.filteredLastLevel s.ctx.lowPassLevel
  rw [Context.withDecodeFields_self, ← hvc, ← htc] at hctx
  refine ⟨t, v, ht, hvn, ?_⟩
  rw [hctx]
  exact ⟨rfl, rfl, rfl, rfl⟩

end Sys2Proof.Machine

/-! ## Host statements (30_encoding.md R87, R88) -/

namespace Sys2Proof.Machine

/-! ### Register writes before a command -/

/-- A list of register writes, each a register and its value, done one after the other. -/
def State.writeRegisters (s : State) (writes : List (Reg × Word)) : State :=
  writes.foldl (fun s write => writeRegister s write.2 write.1) s

theorem State.writeRegisters_cons (s : State) (r : Reg) (v : Word) (writes : List (Reg × Word)) :
    s.writeRegisters ((r, v) :: writes) = (writeRegister s v r).writeRegisters writes := rfl

/-- A write commutes with the bookkeeping of an access: the coming actions and the issuing client. -/
theorem writeRegister_access (s : State) (v : Word) (r : Reg) (rest : List HostAction) (client : Client) :
    writeRegister ((s.setPending rest).setIssuer client) v r =
      ((writeRegister s v r).setPending rest).setIssuer client := by
  cases r <;> rfl

@[simp] theorem writeRegister_refusedMark (s : State) (v : Word) (r : Reg) :
    (writeRegister s v r).refusedMark = s.refusedMark := by
  cases r <;> rfl

@[simp] theorem writeRegister_status (s : State) (v : Word) (r : Reg) : (writeRegister s v r).status = s.status := by
  cases r <;> rfl

theorem State.writeRegisters_access (s : State) (writes : List (Reg × Word)) (rest : List HostAction)
    (client : Client) :
    ((s.setPending rest).setIssuer client).writeRegisters writes =
      ((s.writeRegisters writes).setPending rest).setIssuer client := by
  induction writes generalizing s with
  | nil => rfl
  | cons write writes ih =>
    obtain ⟨r, v⟩ := write
    rw [State.writeRegisters_cons, writeRegister_access, ih, State.writeRegisters_cons]

/-- Register writes followed by a command write are one step each; the command runs on the state in which each register
holds its value (R29, R87). -/
theorem runMarked_writes_command {s t : State} {client : Client} {writes : List (Reg × Word)} {i : Instr}
    {rest : List HostAction} (hw : ∀ write ∈ writes, write.1 ≠ .cmd)
    (hp : s.pending = writes.map (fun write => writeAction client write.1 write.2) ++
      writeAction client .cmd (encode i) :: rest)
    (hm : s.refusedMark = none) (hb : s.status.busy = false)
    (he : exec i ((s.writeRegisters writes).commandState client (encode i) rest) = .next t) :
    runMarked (writes.length + 1) s = t := by
  induction writes generalizing s with
  | nil => exact stepMarked_command ⟨hp, hm, hb⟩ (decode_encode i) he
  | cons write writes ih =>
    obtain ⟨r, v⟩ := write
    rw [List.forall_mem_cons] at hw
    rw [List.length_cons, runMarked, stepMarked_write hw.1 ⟨hp, hm, hb⟩, writeRegister_access]
    refine ih hw.2 rfl (by simpa using hm) (by simpa using hb) ?_
    rw [State.writeRegisters_access]
    exact he

/-! ### ENC8's samples -/

/-- Appending words is adding the upper one, shifted, to the lower one. -/
theorem toNat_append_eq_add {m n : Nat} (x : BitVec m) (y : BitVec n) :
    (x ++ y).toNat = x.toNat * 2 ^ n + y.toNat := by
  rw [BitVec.toNat_append, ← Nat.shiftLeft_add_eq_or_of_lt y.isLt, Nat.shiftLeft_eq]

/-- A sample's byte is its low 8 bits (R81). -/
theorem byteOf_toNat (x : Int) : ((byteOf x).toNat : Int) = x % 256 := by
  rw [byteOf, BitVec.toNat_ofInt]
  omega

/-- Four sample bytes in a word, the first in bits 7:0 (R88). -/
theorem sampleWord_toNat (s0 s1 s2 s3 : Int) :
    ((sampleWord s0 s1 s2 s3).toNat : Int) =
      s0 % 256 + 256 * (s1 % 256) + 65536 * (s2 % 256) + 16777216 * (s3 % 256) := by
  have h0 := byteOf_toNat s0
  have h1 := byteOf_toNat s1
  have h2 := byteOf_toNat s2
  have h3 := byteOf_toNat s3
  rw [sampleWord, toNat_append_eq_add, toNat_append_eq_add, toNat_append_eq_add]
  omega

/-- Settles O50: the two DIN writes, then the command. -/
theorem enc8StatementRuns : Obligations.Enc8StatementRuns := by
  intro s client s0 s1 s2 s3 s4 s5 s6 s7 rest hp hm hb
  refine ⟨(s.writeRegisters [(.dinLo, sampleWord s0 s1 s2 s3), (.dinHi, sampleWord s4 s5 s6 s7)]).commandState client
    (encode .enc8) rest, rfl, sampleWord_toNat s0 s1 s2 s3, sampleWord_toNat s4 s5 s6 s7, fun t he => ?_⟩
  exact runMarked_writes_command (by simp) hp hm hb he

/-! ### The other statements -/

/-- The operand writes of a buffer statement, in R88's order. -/
def bufferWrites (output input : BufferArgument) (n : Int) : List (Reg × Word) :=
  [(.outBase, operandWord output.base), (.outLen, operandWord output.length), (.outOff, operandWord output.offset),
   (.inBase, operandWord input.base), (.inLen, operandWord input.length), (.inOff, operandWord input.offset),
   (.count, operandWord n)]

theorem bufferWrites_ne_cmd (output input : BufferArgument) (n : Int) :
    ∀ write ∈ bufferWrites output input n, write.1 ≠ .cmd := by
  simp [bufferWrites]

/-- The state on which a buffer statement's command runs: each operand register holds its operand (R83, R88). -/
theorem writeRegisters_bufferWrites (s : State) (client : Client) (output input : BufferArgument) (n : Int) (w : Word)
    (rest : List HostAction) :
    (s.writeRegisters (bufferWrites output input n)).commandState client w rest = { s with
      pending := rest, issuer := client, cmd := w
      outBase := BitVec.ofInt 32 output.base, outLen := BitVec.ofInt 32 output.length
      outOff := BitVec.ofInt 32 output.offset, inBase := BitVec.ofInt 32 input.base
      inLen := BitVec.ofInt 32 input.length, inOff := BitVec.ofInt 32 input.offset
      count := BitVec.ofInt 32 n } := by
  simp only [bufferWrites, State.writeRegisters_cons, writeRegister, operandWord]
  rfl

/-- Settles O51: the seven operand writes, then the command. -/
theorem bufferStatementsRun : Obligations.BufferStatementsRun := by
  intro s t client output input n rest i hi hm hb he
  have hw := bufferWrites_ne_cmd output input n
  rcases hi with ⟨rfl, hp⟩ | ⟨rfl, hp⟩
  · rw [if_pos rfl, ← writeRegisters_bufferWrites] at he
    exact runMarked_writes_command hw hp hm hb he
  · rw [if_neg nofun, ← writeRegisters_bufferWrites] at he
    exact runMarked_writes_command hw hp hm hb he

/-- Settles O52: DEC8's write and command, and the one command write of INIT and CMD. -/
theorem commandStatementsRun : Obligations.CommandStatementsRun := by
  refine fun s client rest hm hb => ⟨fun c t hp he => ?_, fun v hp => ?_, fun w hp => ?_⟩
  · exact runMarked_writes_command (writes := [(.dinLo, operandWord c)]) (i := .dec8) (by simp) hp hm hb he
  · have hw : (if v = .legacy then 0x11#32 else 0x1#32) = encode (.init v) := by cases v <;> rfl
    rw [hw]
    exact step_writeCmd_ok ⟨hp, hm, hb⟩ (decode_encode _)
  · exact step_writeCmd ⟨hp, hm, hb⟩

/-! ## The clean-entry state (30_encoding.md R87, 70_reset_and_hazards.md R173) -/

/-- The RAM map holds a byte exactly if some region does (R60). -/
theorem ramBacks_iff (ram : List Region) (a : Nat) :
    ramBacks ram a = true ↔ ∃ r ∈ ram, r.base ≤ a ∧ a < r.base + r.size := by
  simp [ramBacks]

/-- R173's premise: every byte that the MEM statements name is in the space and backed. -/
theorem launchAllowed_iff (program : List HostStatement) (ram : List Region) :
    launchAllowed program ram = true ↔
      ∀ a ∈ program.flatMap HostStatement.namedBytes,
        a < Config.memTop ∧ ∃ r ∈ ram, r.base ≤ a ∧ a < r.base + r.size := by
  simp only [launchAllowed, List.all_eq_true, Bool.and_eq_true, decide_eq_true_eq, ramBacks_iff]

/-- There is no clean-entry state exactly where the premise fails. -/
theorem launch_eq_none_iff (client : Client) (program : List HostStatement) (ram : List Region) :
    launch client program ram = none ↔ ¬ launchAllowed program ram = true := by
  simp [launch]

/-- A clean-entry state is the reset state but for the actions, the memory and the RAM map. -/
theorem launch_eq_some {client : Client} {program : List HostStatement} {ram : List Region} {s : State}
    (h : launch client program ram = some s) :
    launchAllowed program ram = true ∧
      s = { State.reset with
        pending := programActions client program, mem := programMemory program [], ram := ram } := by
  rw [launch] at h
  split at h
  next ha => exact ⟨ha, (Option.some.inj h).symm⟩
  · cases h

/-- A byte of a MEM statement that no later statement names has that statement's value. -/
theorem programMemory_read_mem {m : Memory} (hm : m.wf) {before after : List HostStatement} {a : Nat}
    {bytes : List Byte} {i : Nat} (h : i < bytes.length)
    (ha : a + i ∉ after.flatMap HostStatement.namedBytes) :
    (programMemory (before ++ .mem a bytes :: after) m).read (a + i) = bytes[i] := by
  have hwf := programMemory_wf hm before
  rw [programMemory_append, programMemory_cons, programMemory_read (HostStatement.applyMem_wf hwf _) ha,
    HostStatement.applyMem, Memory.writeBytes_read hwf, dif_pos (by omega)]
  simp

/-- The program's memory keeps the reset state's invariant. -/
theorem inv_programMemory {program : List HostStatement}
    (h : ∀ a ∈ program.flatMap HostStatement.namedBytes, a < Config.memTop) (pending : List HostAction)
    (ram : List Region) :
    Inv { State.reset with pending := pending, mem := programMemory program [], ram := ram } := by
  obtain ⟨hr, hf, hst, hw, hsp⟩ := invariantAtReset
  exact ⟨hr, hf, hst, programMemory_wf hw program, programMemory_inSpace hsp h⟩

/-- Settles O53: the premise of `launch`, then the program's memory byte by byte. -/
theorem launchMeetsItsPremise : Obligations.LaunchMeetsItsPremise := by
  refine fun client program ram => ⟨?_, fun s h => ?_⟩
  · rw [launch_eq_none_iff, launchAllowed_iff]
    simp only [not_forall, not_and_or, not_lt, exists_prop]
    rfl
  · obtain ⟨ha, rfl⟩ := launch_eq_some h
    rw [launchAllowed_iff] at ha
    refine ⟨inv_programMemory (fun a hm => (ha a hm).1) _ ram, rfl, fun a hm => ?_,
      fun before after a bytes i hi hp hn => ?_, fun a hn => programMemory_read Memory.wf_nil hn⟩
    · exact (State.backed_iff _ a).mp ((ramBacks_iff ram a).mpr (ha a hm).2)
    · rw [hp]
      exact programMemory_read_mem Memory.wf_nil hi hn

end Sys2Proof.Machine

/-! ## The context view and INIT (40_context.md R90 to R93) -/

namespace Sys2Proof.Machine

/-- CTX_CFG as a number: LEGACY at bit 0, VALID at bit 1 (R36). -/
theorem Context.cfgWord_toNat (c : Context) :
    c.cfgWord.toNat = (if c.variant = .legacy then 1 else 0) + (if c.valid = true then 2 else 0) := by
  rw [Context.cfgWord]
  cases c.variant <;> cases c.valid <;> rfl

/-- A response in its range fits the 10 bits of CTX_RESPONSE (R37, R47). -/
theorem Context.responseWord_toNat {c : Context} (h0 : 0 ≤ c.response)
    (h1 : c.response ≤ 2 ^ (consts c.variant).respPrec - 1) : (c.responseWord.toNat : Int) = c.response := by
  have hp : (2 : Int) ^ (consts c.variant).respPrec ≤ 1024 := by cases c.variant <;> decide
  rw [Context.responseWord, BitVec.toNat_setWidth, BitVec.toNat_ofInt]
  omega

/-- A signed context field in its 8-bit range reads as itself (R38). -/
theorem signedWord_toInt {v : Int} (h0 : -128 ≤ v) (h1 : v ≤ 127) : (signedWord v).toInt = v :=
  BitVec.toInt_ofInt_eq_self (by decide) (by omega) (by omega)

/-- CTX_LASTBIT as a number (R37). -/
theorem Context.lastBitWord_toNat (c : Context) : c.lastBitWord.toNat = if c.lastBit = true then 1 else 0 := by
  rw [Context.lastBitWord]
  cases c.lastBit <;> rfl

/-- CTX_PARAMS of the two variants (R39). -/
theorem Context.paramsWord_eq (c : Context) :
    c.paramsWord = if c.variant = .legacy then 0x64081407#32 else 0x8C0A0101#32 := by
  rw [Context.paramsWord]
  cases c.variant <;> rfl

/-- Settles O8: a read returns the register at the offset, and each context register holds its field. -/
theorem contextViewReads : Obligations.ContextViewReads := by
  intro s client rest offset hc h ho
  have h4 : offset.toNat % 4 = 0 :=
    (show ∀ o ∈ [0x40#8, 0x44#8, 0x48#8, 0x4C#8, 0x50#8, 0x54#8, 0x58#8], o.toNat % 4 = 0 by decide) offset ho
  obtain ⟨hl0, hl1, hf0, hf1, hp0, hp1, hr0, hr1⟩ := hc
  refine ⟨readOffset s offset, step_readReg h h4, ?_, ?_, ?_, ?_, ?_, ?_, ?_⟩ <;> rintro rfl
  · exact s.ctx.cfgWord_toNat
  · exact Context.responseWord_toNat hr0 hr1
  · exact signedWord_toInt hl0 hl1
  · exact s.ctx.lastBitWord_toNat
  · exact signedWord_toInt hf0 hf1
  · exact signedWord_toInt hp0 hp1
  · exact s.ctx.paramsWord_eq

/-- A word with OP = 0x1 and RSVD = 0 is INIT's own, with bit 4 as the variant (R73, R74). -/
theorem eq_encode_init {w : Word} (hop : w.toNat % 16 = 1) (hr : w.toNat / 32 = 0) :
    w = encode (.init (if w.toNat / 16 = 1 then .legacy else .modern)) := by
  apply BitVec.eq_of_toNat_eq
  split_ifs with hv
  · exact (show w.toNat = 0x11 by omega)
  · exact (show w.toNat = 0x01 by omega)

/-- Settles O18: INIT's one outcome, its two words, and the INVALID_COMMAND outcome of a word with RSVD ≠ 0. -/
theorem initConstructsAContext : Obligations.InitConstructsAContext := by
  refine ⟨fun s v => ⟨_, execInit_next v s, rfl⟩, fun s client w rest h hop => ⟨fun hr => ?_, fun hr => ?_⟩⟩
  · exact step_writeCmd_ok h (decode_eq_ok_iff.mpr (eq_encode_init hop hr))
  · exact (illegalWordIsInvalidCommand w).2 s client rest h (.inl hr)

/-- Settles O20: the gate before every command but INIT. -/
theorem noContextGate : Obligations.NoContextGate :=
  fun _ _ => exec_noContext

end Sys2Proof.Machine

/-! ## ADVANCE as one formula (41_predictor.md R96 to R108) -/

namespace Sys2Proof.Machine

/-- The run goes on exactly if the bit is the last one (R99, R102). -/
@[simp] theorem continuing_iff (bit : Bool) (c : Context) : continuing bit c = true ↔ bit = c.lastBit := beq_iff_eq

/-- Legacy's scaled level: the rounding term is 128 and the shift 8 (R97, R18). -/
theorem scaledLevel_legacy {c : Context} (hv : c.variant = .legacy) (bit : Bool) :
    scaledLevel bit c = c.level + (c.response * (railTarget bit - c.level) + 128).fdiv 256 := by
  rw [scaledLevel, floorShift_eq_fdiv, hv]
  rfl

/-- Modern's scaled level: the rounding term is 512 and the shift 10 (R97, R18). -/
theorem scaledLevel_modern {c : Context} (hv : c.variant = .modern) (bit : Bool) :
    scaledLevel bit c = c.level + (c.response * (railTarget bit - c.level) + 512).fdiv 1024 := by
  rw [scaledLevel, floorShift_eq_fdiv, hv]
  rfl

/-- Legacy's response target is 255 for a continuing run and 0 for a transition (R99). -/
theorem responseTarget_legacy {c : Context} (hv : c.variant = .legacy) (bit : Bool) :
    responseTarget bit c = if bit = c.lastBit then 255 else 0 := by
  simp only [responseTarget, continuing_iff, hv]
  rfl

/-- Modern's response target is 1023 for a continuing run and 0 for a transition (R99). -/
theorem responseTarget_modern {c : Context} (hv : c.variant = .modern) (bit : Bool) :
    responseTarget bit c = if bit = c.lastBit then 1023 else 0 := by
  simp only [responseTarget, continuing_iff, hv]
  rfl

/-- Legacy's scaled response: the weight is 7 for a continuing run and 20 for a transition (R99, R100). -/
theorem scaledResponse_legacy {c : Context} (hv : c.variant = .legacy) (bit : Bool) :
    scaledResponse bit c = c.response +
      ((if bit = c.lastBit then 7 else 20) * (responseTarget bit c - c.response) + 128).fdiv 256 := by
  simp only [scaledResponse, responseDelta, continuing_iff, floorShift_eq_fdiv, hv]
  rfl

/-- Modern has no scaled update (R101). -/
theorem scaledResponse_modern {c : Context} (hv : c.variant = .modern) (bit : Bool) :
    scaledResponse bit c = c.response := by
  rw [scaledResponse, hv]

/-- Legacy has no floor clamp (R103, C1). -/
theorem nextResponse_legacy {c : Context} (hv : c.variant = .legacy) (bit : Bool) :
    nextResponse bit c = nudgedResponse bit c := by
  rw [nextResponse, hv]
  exact if_neg fun h => absurd h.1 (by decide)

/-- Modern's floor clamp is at 8 (R103). -/
theorem nextResponse_modern {c : Context} (hv : c.variant = .modern) (bit : Bool) :
    nextResponse bit c = if nudgedResponse bit c < 8 then 8 else nudgedResponse bit c := by
  simp only [nextResponse, hv, consts, Nat.reduceGT, true_and]
  rfl

/-- The anti-stall rule is Modern's only change of the response: one toward its target (R101, R102). -/
theorem nudgedResponse_modern {c : Context} (hv : c.variant = .modern) (bit : Bool) :
    nudgedResponse bit c =
      if bit = c.lastBit then (if c.response = 1023 then 1023 else c.response + 1)
      else (if c.response = 0 then 0 else c.response - 1) := by
  simp only [nudgedResponse, scaledResponse_modern hv, responseTarget_modern hv, continuing_iff, true_and]
  split_ifs <;> omega

/-- Settles O24: the anti-stall rule moves the response by one, and the clamp stops it at 8. -/
theorem modernResponseRamp : Obligations.ModernResponseRamp := by
  intro bit c hv
  rw [advance_response, nextResponse_modern hv, nudgedResponse_modern hv]
  refine ⟨fun h0 h1 => ?_, fun h => ?_⟩
  · split_ifs <;> omega
  · split_ifs <;> omega

/-- Settles O21: the level, the same for both variants but for its scale, and the response of each variant. -/
theorem advanceFormula : Obligations.AdvanceFormula := by
  intro bit c
  cases hv : c.variant with
  | legacy =>
    simp only [advance, hv, nextLevel, railTarget, scaledLevel_legacy hv, nextResponse_legacy hv, nudgedResponse,
      scaledResponse_legacy hv, responseTarget_legacy hv, continuing_iff]
  | modern =>
    simp only [advance, hv, nextLevel, railTarget, scaledLevel_modern hv, nextResponse_modern hv, nudgedResponse,
      scaledResponse_modern hv, responseTarget_modern hv, continuing_iff, true_and]

end Sys2Proof.Machine

/-! ## Encode (42_encode.md R109 to R118) -/

namespace Sys2Proof.Machine

/-- Settles O26: the decision as a proposition, and ENCSTEP by definition. -/
theorem encoderDecision : Obligations.EncoderDecision :=
  fun x c => ⟨encodeBit_iff x c, rfl⟩

/-! ### What an accepted command leaves for the next one -/

/-- No command takes a context away (R25, R91). -/
theorem exec_keeps_valid {i : Instr} {s t : State} (h : exec i s = .next t) (hv : s.ctx.valid = true) :
    t.ctx.valid = true :=
  exec_context_keeps (P := fun c => c.valid = true) h (fun _ _ => rfl) (fun _ _ hc => hc) (fun _ _ hc => hc) hv

/-- After an accepted command that uses the context, its client's next one is not Shared (log entry 6). -/
theorem exec_ok_not_shared {i : Instr} {s t : State} (h : exec i s = .next t) (hi : ∀ v, i ≠ .init v)
    (hk : t.status.kind = .ok) : ¬ SharedClients t := by
  rcases exec_users h with ⟨⟨v, hinit⟩, -⟩ | ⟨-, -, hne⟩ | ⟨-, hs, hu, -⟩
  · exact absurd hinit (hi v)
  · exact absurd hk hne
  · exact not_shared_of_recorded hs hu (exec_issuer h)

/-- A property of contexts that ADVANCE keeps is kept by the encode commands. -/
theorem exec_encode_keeps {P : Context → Prop} {i : Instr} {s t : State} (hi : i = .enc8 ∨ i = .encb)
    (h : exec i s = .next t) (hadv : ∀ b c, P c → P (advance b c)) (hs : P s.ctx) : P t.ctx := by
  rcases hi with rfl | rfl
  · rcases execEnc8_next h with ⟨-, rfl⟩ | ⟨-, -, rfl⟩
    · exact hs
    · exact encodeContext_keeps hadv _ hs
  · rcases execEncb_next h with ⟨k, c, -, rfl⟩ | ⟨-, rfl⟩
    · exact hs
    · exact encodeGroups_keeps hadv _ _ _ hs

/-! ### The decode fields (R117) -/

/-- The context differs from `c₀` in the three fields that ADVANCE writes, at most (R107). -/
def Context.AdvancedFrom (c₀ c : Context) : Prop :=
  c = { c₀ with response := c.response, level := c.level, lastBit := c.lastBit }

theorem Context.AdvancedFrom.advance {c₀ c : Context} (h : c₀.AdvancedFrom c) (bit : Bool) :
    c₀.AdvancedFrom (advance bit c) := by
  rw [h]
  rfl

/-- Neither the decision nor ADVANCE reads the decode fields, so they pass through an ENCSTEP (R107, R109). -/
theorem encodeNext_withDecodeFields (x : Int) (c : Context) (f p : Int) :
    encodeNext x (c.withDecodeFields f p) = (encodeNext x c).withDecodeFields f p := rfl

theorem encodeBits_withDecodeFields (xs : List Int) (c : Context) (f p : Int) :
    encodeBits xs (c.withDecodeFields f p) = encodeBits xs c := by
  induction xs generalizing c with
  | nil => rfl
  | cons x xs ih =>
    rw [encodeBits, encodeNext_withDecodeFields, ih]
    rfl

theorem encodeContext_withDecodeFields (xs : List Int) (c : Context) (f p : Int) :
    encodeContext xs (c.withDecodeFields f p) = (encodeContext xs c).withDecodeFields f p := by
  induction xs generalizing c with
  | nil => rfl
  | cons x xs ih => rw [encodeContext, encodeNext_withDecodeFields, ih, encodeContext]

/-- Settles O28: every ADVANCE writes three fields only, and the decode fields pass through every ENCSTEP. -/
theorem encodeIgnoresTheDecodeFields : Obligations.EncodeIgnoresTheDecodeFields :=
  ⟨fun _ s _ hi h => exec_encode_keeps (P := s.ctx.AdvancedFrom) hi h (fun bit _ hc => hc.advance bit) rfl,
    fun xs c f p => ⟨encodeBits_withDecodeFields xs c f p, encodeContext_withDecodeFields xs c f p⟩⟩

/-! ### ENCB's checks and its effect (R114, R115) -/

/-- Settles O29: the cases of a buffer command, with R114's COUNT condition. -/
theorem encbRejects : Obligations.EncbRejects := by
  intro s hv
  obtain ⟨hcount, hin, hout, hranges⟩ := bufferCommand_cases (nin := s.encodeIn) (nout := s.encodeOut) hv
    (encodeCountBad s.bufferOperands) encodeCounts_nonneg (encodeGroups s.encodeOut.toNat)
  have hlegal : ¬ EncodeCountIllegal s → encodeCountBad s.bufferOperands = false := fun hc =>
    Bool.eq_false_iff.mpr ((encodeCountBad_iff s).not.mpr hc)
  refine ⟨fun hc => hcount ((encodeCountBad_iff s).mpr hc), fun hc => hin (hlegal hc), fun hc => hout (hlegal hc),
    fun hc hi ho => ?_⟩
  obtain ⟨hoverlap, hunbacked, -⟩ := hranges (hlegal hc) hi ho
  exact ⟨hoverlap, hunbacked⟩

/-- Settles O30: the trace of contexts and bits over all the samples, packed group by group by the encode loop. -/
theorem encbEncodesABuffer : Obligations.EncbEncodesABuffer := by
  intro s ha hwf
  obtain ⟨h8, hk, -⟩ := encodeAccepted_counts ha
  obtain ⟨-, -, hi, ho, -⟩ := id ha
  obtain ⟨⟨hin, -⟩, hout, -⟩ := ranges_in_space hi ho
  obtain ⟨hctx, hcode, hother⟩ := encodeGroups_spec hwf _ _ _ (encodeAccepted_disjoint ha)
  obtain ⟨c, b, h0, hstep, hlast, hbits⟩ :=
    encodeContext_trace (s.loadSamples s.inAddr (8 * s.encodeOut.toNat)) s.ctx
  rw [← hk, ← h8]
  refine ⟨_, c, b, execEncb_accepted ha, h0, fun j hj => ?_, fun g hg k hk8 => ?_, hother, hin, hout, ?_⟩
  · have hlen : j < (s.loadSamples s.inAddr (8 * s.encodeOut.toNat)).length := by rwa [loadSamples_length]
    obtain ⟨hb, hc⟩ := hstep j hlen
    rw [← loadSamples_getElem s _ _ hlen]
    exact ⟨by rw [hb, encodeBit_iff], hc⟩
  · rw [State.accept_mem, hcode g hg, codeByte_getLsbD (by simp; omega) (by simp; omega), List.getElem_take,
      List.getElem_drop, ← hbits (8 * g + k) (by simp; omega)]
  · rw [encodeGroups_eq, hctx, ← hlast, loadSamples_length]
    rfl

/-! ### Chunks (R118) -/

/-- The buffers and the RAM of `u` are those of `s`, and its ENCB's ranges lie within the ranges of ENCB in `s`. -/
structure EncodePart (s u : State) : Prop where
  inBase : u.inBase = s.inBase
  inLen : u.inLen = s.inLen
  outBase : u.outBase = s.outBase
  outLen : u.outLen = s.outLen
  ram : u.ram = s.ram
  inFirst : s.inOff.toInt ≤ u.inOff.toInt
  inLast : u.inOff.toInt + u.count.toInt ≤ s.inOff.toInt + s.count.toInt
  outFirst : s.outOff.toInt ≤ u.outOff.toInt
  outLast : u.outOff.toInt + u.count.toInt / 8 ≤ s.outOff.toInt + s.count.toInt / 8

theorem EncodePart.inInputRange {s u : State} (h : EncodePart s u) {a : Int} (ha : InInputRange u u.count.toInt a) :
    InInputRange s s.count.toInt a := by
  have hfirst := h.inFirst
  have hlast := h.inLast
  simp only [InInputRange, h.inBase] at ha ⊢
  omega

theorem EncodePart.inOutputRange {s u : State} (h : EncodePart s u) {a : Int}
    (ha : InOutputRange u (u.count.toInt / 8) a) : InOutputRange s (s.count.toInt / 8) a := by
  have hfirst := h.outFirst
  have hlast := h.outLast
  simp only [InOutputRange, h.outBase] at ha ⊢
  omega

/-- Part of an accepted ENCB is accepted, if its COUNT is legal and the context is there and not Shared. -/
theorem EncodePart.accepted {s u : State} (h : EncodePart s u) (ha : EncodeAccepted s) (hv : u.ctx.valid = true)
    (hc : ¬ EncodeCountIllegal u) (hs : ¬ SharedClients u) : EncodeAccepted u := by
  obtain ⟨-, -, hi, ho, hov, hun, -⟩ := ha
  refine ⟨hv, hc, fun hin => hi ?_, fun hout => ho ?_, ?_, ?_, hs⟩
  · have hfirst := h.inFirst
    have hlast := h.inLast
    simp only [InputOutOfBounds, h.inBase, h.inLen] at hin ⊢
    omega
  · have hfirst := h.outFirst
    have hlast := h.outLast
    simp only [OutputOutOfBounds, h.outBase, h.outLen] at hout ⊢
    omega
  · rintro ⟨a, hin, hout⟩
    exact hov ⟨a, h.inInputRange hin, h.inOutputRange hout⟩
  · rintro ⟨a, hrange, hb⟩
    rw [IsBacked, h.ram] at hb
    exact hun ⟨a, hrange.imp h.inInputRange h.inOutputRange, hb⟩

/-- An accepted ENCB of `8k` samples runs the encode loop over `k` groups. -/
theorem execEncb_groups {s : State} (ha : EncodeAccepted s) {k : Nat} (hn : s.count.toInt = (8 * k : Nat)) :
    exec .encb s = .next (encodeGroups k s.inAddr s.outAddr s).accept := by
  obtain ⟨h8, -, -⟩ := encodeAccepted_counts ha
  have hk : s.encodeOut.toNat = k := by omega
  rw [execEncb_accepted ha, hk]

/-- The state with another COUNT. -/
def State.withCount (s : State) (n : Nat) : State := { s with count := BitVec.ofNat 32 n }

@[simp] theorem State.withCount_inOff (s : State) (n : Nat) : (s.withCount n).inOff = s.inOff := rfl
@[simp] theorem State.withCount_outOff (s : State) (n : Nat) : (s.withCount n).outOff = s.outOff := rfl

/-- The state `u` for the next chunk of `s`: another COUNT, and the offsets of `s` past `n` samples and their code. -/
def State.nextChunk (s u : State) (n m : Nat) : State :=
  { u with
    count := BitVec.ofNat 32 m, inOff := s.inOff + BitVec.ofNat 32 n, outOff := s.outOff + BitVec.ofNat 32 (n / 8) }

section Chunks

/-! Here `s` is the state of an accepted ENCB, and `u` the state after an ENCB over its first samples. -/

variable {s u : State} {k₁ k₂ : Nat}

theorem encodeAccepted_offsets_nonneg (ha : EncodeAccepted s) : 0 ≤ s.inOff.toInt ∧ 0 ≤ s.outOff.toInt := by
  obtain ⟨-, -, hi, ho, -⟩ := ha
  simp only [InputOutOfBounds, OutputOutOfBounds, not_or, not_lt] at hi ho
  exact ⟨hi.1, ho.1⟩

theorem firstChunk_accepted (ha : EncodeAccepted s) (hn : s.count.toInt = (8 * (k₁ + k₂) : Nat)) (hk : 0 < k₁) :
    EncodeAccepted (s.withCount (8 * k₁)) := by
  have hlt := BitVec.toInt_lt (x := s.count)
  have hcount : (s.withCount (8 * k₁)).count.toInt = (8 * k₁ : Nat) := toInt_ofNat_of_lt (by omega)
  have hpart : EncodePart s (s.withCount (8 * k₁)) :=
    { inBase := rfl, inLen := rfl, outBase := rfl, outLen := rfl, ram := rfl
      inFirst := le_refl s.inOff.toInt
      inLast := by rw [hcount, hn, State.withCount_inOff]; omega
      outFirst := le_refl s.outOff.toInt
      outLast := by rw [hcount, hn, State.withCount_outOff]; omega }
  have hcountLegal : ¬ EncodeCountIllegal (s.withCount (8 * k₁)) := by simp only [EncodeCountIllegal]; omega
  obtain ⟨hv, -, -, -, -, -, hs⟩ := id ha
  exact hpart.accepted ha hv hcountLegal hs

theorem nextChunk_offsets (ha : EncodeAccepted s) {n m : Nat} (hin : s.inOff.toInt + n < 2 ^ 31)
    (hout : s.outOff.toInt + n / 8 < 2 ^ 31) :
    (s.nextChunk u n m).inOff.toInt = s.inOff.toInt + n ∧
      (s.nextChunk u n m).outOff.toInt = s.outOff.toInt + (n / 8 : Nat) := by
  obtain ⟨hi0, ho0⟩ := encodeAccepted_offsets_nonneg ha
  exact ⟨toInt_add_ofNat hi0 hin, toInt_add_ofNat ho0 (by omega)⟩

/-- The state for the next chunk differs from `s` in what the first ENCB wrote, COUNT and the offsets. -/
theorem nextChunk_eq {n₀ n m : Nat} (hu : exec .encb (s.withCount n₀) = .next u) :
    s.nextChunk u n m = { s with
      ctx := u.ctx, status := u.status, doutLo := u.doutLo, doutHi := u.doutHi, mem := u.mem, users := u.users
      count := (s.nextChunk u n m).count, inOff := (s.nextChunk u n m).inOff, outOff := (s.nextChunk u n m).outOff } := by
  rw [State.nextChunk, exec_frame hu]
  rfl

theorem nextChunk_accepted (ha : EncodeAccepted s) (hn : s.count.toInt = (8 * (k₁ + k₂) : Nat)) (hk : 0 < k₂)
    (hin : s.inOff.toInt + (8 * k₁ : Nat) < 2 ^ 31) (hout : s.outOff.toInt + (8 * k₁ : Nat) / 8 < 2 ^ 31)
    (hu : exec .encb (s.withCount (8 * k₁)) = .next u) (hok : u.status.kind = .ok) :
    EncodeAccepted (s.nextChunk u (8 * k₁) (8 * k₂)) := by
  have hlt := BitVec.toInt_lt (x := s.count)
  have hcount : (s.nextChunk u (8 * k₁) (8 * k₂)).count.toInt = (8 * k₂ : Nat) := toInt_ofNat_of_lt (by omega)
  obtain ⟨hinOff, houtOff⟩ := nextChunk_offsets (u := u) (m := 8 * k₂) ha hin hout
  have hframe := nextChunk_eq (n := 8 * k₁) (m := 8 * k₂) hu
  have hpart : EncodePart s (s.nextChunk u (8 * k₁) (8 * k₂)) :=
    { inBase := by rw [hframe], inLen := by rw [hframe], outBase := by rw [hframe], outLen := by rw [hframe]
      ram := by rw [hframe]
      inFirst := by omega
      inLast := by rw [hcount, hn, hinOff]; omega
      outFirst := by omega
      outLast := by rw [hcount, hn, houtOff]; omega }
  have hcountLegal : ¬ EncodeCountIllegal (s.nextChunk u (8 * k₁) (8 * k₂)) := by
    simp only [EncodeCountIllegal]; omega
  have hv : u.ctx.valid = true := exec_keeps_valid hu ha.1
  have hs : ¬ SharedClients u := exec_ok_not_shared hu nofun hok
  exact hpart.accepted ha hv hcountLegal hs

/-- The next chunk starts where the first one ends (R63). -/
theorem nextChunk_addresses (ha : EncodeAccepted s) (hin : s.inOff.toInt + (8 * k₁ : Nat) < 2 ^ 31)
    (hout : s.outOff.toInt + (8 * k₁ : Nat) / 8 < 2 ^ 31) (hu : exec .encb (s.withCount (8 * k₁)) = .next u)
    (m : Nat) :
    (s.nextChunk u (8 * k₁) m).inAddr = s.inAddr + 8 * k₁ ∧ (s.nextChunk u (8 * k₁) m).outAddr = s.outAddr + k₁ := by
  obtain ⟨hi0, ho0⟩ := encodeAccepted_offsets_nonneg ha
  obtain ⟨hinOff, houtOff⟩ := nextChunk_offsets (u := u) (m := m) ha hin hout
  have hframe := nextChunk_eq (n := 8 * k₁) (m := m) hu
  have hinBase : (s.nextChunk u (8 * k₁) m).inBase = s.inBase := by rw [hframe]
  have houtBase : (s.nextChunk u (8 * k₁) m).outBase = s.outBase := by rw [hframe]
  have hinAddr := State.inAddr_eq hi0
  have houtAddr := State.outAddr_eq ho0
  have hinNext := State.inAddr_eq (s := s.nextChunk u (8 * k₁) m) (by omega)
  have houtNext := State.outAddr_eq (s := s.nextChunk u (8 * k₁) m) (by omega)
  rw [hinBase] at hinNext
  rw [houtBase] at houtNext
  omega

end Chunks

/-- Settles O31: both chunks are accepted, and the encode loop splits between them. -/
theorem encbChunkingEquivalence : Obligations.EncbChunkingEquivalence := by
  intro s t n₁ n₂ hpos₁ hmod₁ hpos₂ hmod₂ hlt hin hout hcount ht hok
  obtain ⟨k₁, rfl⟩ := Nat.dvd_of_mod_eq_zero hmod₁
  obtain ⟨k₂, rfl⟩ := Nat.dvd_of_mod_eq_zero hmod₂
  obtain ⟨ha, -⟩ := execEncb_ok ht hok
  have hn : s.count.toInt = (8 * (k₁ + k₂) : Nat) := by rw [hcount, ← Nat.mul_add, toInt_ofNat_of_lt (by omega)]
  have ha₁ := firstChunk_accepted ha hn (by omega)
  have hu := execEncb_groups ha₁ (toInt_ofNat_of_lt (by omega))
  have ha₂ := nextChunk_accepted ha hn (by omega) hin hout hu rfl
  have hv := execEncb_groups ha₂ (toInt_ofNat_of_lt (by omega))
  obtain ⟨hinAddr, houtAddr⟩ := nextChunk_addresses ha hin hout hu (8 * k₂)
  rw [execEncb_groups ha hn, encodeGroups_add] at ht
  cases ht
  rw [hinAddr, houtAddr] at hv
  obtain ⟨hctx, hmem⟩ := encodeGroups_congr k₁ s.inAddr s.outAddr (s := s.withCount (8 * k₁)) (u := s) rfl rfl
  exact ⟨_, _, hu, rfl, hv, rfl, encodeGroups_congr _ _ _ hctx hmem⟩

/-! ### Groups (R113, R116, R118) -/

/-- DIN with byte `m j` in lane `j`, as a host loads it before ENC8 (R78). -/
def State.withDin (s : State) (m : Nat → Byte) : State :=
  { s with dinLo := m 3 ++ (m 2 ++ (m 1 ++ m 0)), dinHi := m 7 ++ (m 6 ++ (m 5 ++ m 4)) }

/-- Byte `j` of a word of four bytes. -/
theorem extractLsb'_four_bytes (m : Nat → Byte) {j : Nat} (hj : j < 4) :
    (m 3 ++ (m 2 ++ (m 1 ++ m 0))).extractLsb' (8 * j) 8 = m j := by
  have := (m 0).isLt
  have := (m 1).isLt
  have := (m 2).isLt
  apply BitVec.eq_of_toNat_eq
  simp only [BitVec.extractLsb'_toNat, toNat_append_eq_add, Nat.shiftRight_eq_div_pow]
  interval_cases j <;> omega

theorem withDin_laneOf (s : State) (m : Nat → Byte) {j : Nat} (hj : j < 8) : laneOf (s.withDin m).din j = m j := by
  rw [laneOf_din _ hj]
  split
  next h4 => exact extractLsb'_four_bytes m h4
  next h4 =>
    obtain ⟨i, rfl⟩ := Nat.exists_eq_add_of_le' (show 4 ≤ j by omega)
    exact extractLsb'_four_bytes (fun i => m (i + 4)) (by omega)

/-- With eight bytes of memory in DIN, ENC8's samples are the ones that ENCB loads from there (R78, R115). -/
theorem withDin_dinSamples (s u : State) {a : Nat} {m : Nat → Byte} (hm : ∀ j, m j = s.mem.read (a + j)) :
    (u.withDin m).dinSamples = s.loadSamples a 8 := by
  refine List.ext_getElem (by simp) fun j hj _ => ?_
  rw [dinSamples_getElem _ hj, loadSamples_getElem, withDin_laneOf u m (by simpa using hj), hm]

theorem loadSamples_append (s : State) (a m n : Nat) :
    s.loadSamples a (m + n) = s.loadSamples a m ++ s.loadSamples (a + m) n := by
  simp only [State.loadSamples, State.loadBytes_append, List.map_append]

/-- The bits of group `g` are decided from the context that the samples before it left (R112). -/
theorem encodeBits_group (s : State) (c : Context) (a : Nat) {g k : Nat} (hg : g < k) :
    ((encodeBits (s.loadSamples a (8 * k)) c).drop (8 * g)).take 8 =
      encodeBits (s.loadSamples (a + 8 * g) 8) (encodeContext (s.loadSamples a (8 * g)) c) := by
  obtain ⟨r, rfl⟩ := Nat.exists_eq_add_of_le (show g + 1 ≤ k by omega)
  rw [show 8 * (g + 1 + r) = 8 * g + (8 + 8 * r) by omega, loadSamples_append, loadSamples_append, encodeBits_append,
    encodeBits_append, List.drop_left' (by simp), List.take_left' (by simp)]

/-- The next state of an ENC8 that is accepted (R113). -/
def State.enc8Next (s : State) : State :=
  ((s.setCtx (encodeContext s.dinSamples s.ctx)).setDout (doutOfCode (encodeGroup s.dinSamples s.ctx))).accept

/-- The code byte in DOUT_LO (R82). -/
theorem enc8Next_doutLo (s : State) : s.enc8Next.doutLo.extractLsb' 0 8 = codeByte (encodeBits s.dinSamples s.ctx) := by
  have hlo : s.enc8Next.doutLo = (doutOfCode (encodeGroup s.dinSamples s.ctx)).extractLsb' 0 32 := rfl
  rw [hlo, doutOfCode_lo, encodeGroup]
  refine BitVec.eq_of_getLsbD_eq fun i hi => ?_
  have hi32 : i < 32 := by omega
  simp [hi, hi32]

/-- The bytes of group `g` of ENCB's input range (R115). -/
def State.groupBytes (s : State) (g : Nat) : Nat → Byte := fun j => s.mem.read (s.inAddr + (8 * g + j))

/-- The run of ENC8 commands over the groups of ENCB's input range (R118). -/
def State.enc8Run (s : State) : Nat → State
  | 0 => s
  | g + 1 => ((s.enc8Run g).withDin (s.groupBytes g)).enc8Next

section Groups

variable {s : State} (hv : s.ctx.valid = true) (hs : ¬ SharedClients s)
include hv hs

/-- Each ENC8 of the run finds what the gates of the next one ask for. -/
theorem enc8Run_gates (g : Nat) : (s.enc8Run g).ctx.valid = true ∧ ¬ SharedClients (s.enc8Run g) := by
  induction g with
  | zero => exact ⟨hv, hs⟩
  | succ g ih =>
    have hnext := execEnc8_accepted (s := (s.enc8Run g).withDin (s.groupBytes g)) ih.1 ih.2
    exact ⟨exec_keeps_valid hnext ih.1, exec_ok_not_shared hnext nofun rfl⟩

theorem exec_enc8Run (g : Nat) :
    exec .enc8 ((s.enc8Run g).withDin (s.groupBytes g)) = .next (s.enc8Run (g + 1)) :=
  have ⟨hvalid, hshared⟩ := enc8Run_gates hv hs g
  execEnc8_accepted hvalid hshared

end Groups

theorem enc8Run_dinSamples (s : State) (g : Nat) :
    ((s.enc8Run g).withDin (s.groupBytes g)).dinSamples = s.loadSamples (s.inAddr + 8 * g) 8 :=
  withDin_dinSamples s _ fun j => by rw [State.groupBytes, Nat.add_assoc]

/-- After `g` groups the context has run over their samples (R106). -/
theorem enc8Run_ctx (s : State) (g : Nat) :
    (s.enc8Run g).ctx = encodeContext (s.loadSamples s.inAddr (8 * g)) s.ctx := by
  induction g with
  | zero => rfl
  | succ g ih =>
    have hctx : (s.enc8Run (g + 1)).ctx =
      encodeContext ((s.enc8Run g).withDin (s.groupBytes g)).dinSamples (s.enc8Run g).ctx := rfl
    rw [hctx, enc8Run_dinSamples, ih, ← encodeContext_append, ← loadSamples_append, Nat.mul_succ]

theorem enc8Run_doutLo (s : State) (g : Nat) :
    (s.enc8Run (g + 1)).doutLo.extractLsb' 0 8 =
      codeByte (encodeBits (s.loadSamples (s.inAddr + 8 * g) 8)
        (encodeContext (s.loadSamples s.inAddr (8 * g)) s.ctx)) := by
  rw [State.enc8Run, enc8Next_doutLo, enc8Run_dinSamples, ← enc8Run_ctx]
  rfl

/-- Settles O32: the run of ENC8 over the groups, with ENCB's bits and contexts. -/
theorem encbIsEnc8GroupByGroup : Obligations.EncbIsEnc8GroupByGroup := by
  intro s t ha hwf ht
  obtain ⟨hv, -, -, -, -, -, hs⟩ := id ha
  obtain ⟨-, hk, -⟩ := encodeAccepted_counts ha
  obtain ⟨hctx, hcode, -⟩ := encodeGroups_spec hwf _ _ _ (encodeAccepted_disjoint ha)
  rw [execEncb_accepted ha] at ht
  cases ht
  rw [← hk]
  refine ⟨s.enc8Run, rfl, fun g hg => ⟨exec_enc8Run hv hs g, ?_⟩, ?_⟩
  · rw [State.accept_mem, hcode g hg, encodeBits_group s _ _ hg, enc8Run_doutLo]
  · rw [State.accept_ctx, hctx, enc8Run_ctx]

end Sys2Proof.Machine

/-! ## Decode (43_decode.md R119 to R131) -/

namespace Sys2Proof.Machine

/-! ### DECSTEP (R119 to R125) -/

/-- The noise-shaped level at a transition is the floor of half of the sum with 1 (R121). -/
theorem shapedLevel_eq (bit : Bool) (c d : Context) :
    shapedLevel bit c d = if bit = c.lastBit then d.level else (c.filteredLastLevel + d.level + 1).fdiv 2 := by
  rw [shapedLevel, floorShift_eq_fdiv, pow_one]

/-- Legacy's low-pass update: the strength is 100 (R18, R123). -/
theorem filteredOutput_legacy {c : Context} (hv : c.variant = .legacy) (blevel : Int) :
    filteredOutput c blevel = c.lowPassLevel + (100 * (blevel - c.lowPassLevel) + 0x80).fdiv 256 := by
  rw [filteredOutput, floorShift_eq_fdiv, hv]
  rfl

/-- Modern's low-pass update: the strength is 140 (R18, R123). -/
theorem filteredOutput_modern {c : Context} (hv : c.variant = .modern) (blevel : Int) :
    filteredOutput c blevel = c.lowPassLevel + (140 * (blevel - c.lowPassLevel) + 0x80).fdiv 256 := by
  rw [filteredOutput, floorShift_eq_fdiv, hv]
  rfl

/-- Settles O33: the noise-shaped level, the same for both variants, and the low-pass update of each. -/
theorem decodeStepFormula : Obligations.DecodeStepFormula := by
  refine fun bit c => ⟨?_, rfl⟩
  cases hv : c.variant with
  | legacy => simp only [decodeNext, shapedLevel_eq, filteredOutput_legacy hv]
  | modern => simp only [decodeNext, shapedLevel_eq, filteredOutput_modern hv]

/-- Settles O35: the low byte of a level in [-128, 127] is that level. -/
theorem narrowingIsTheIdentityInRange : Obligations.NarrowingIsTheIdentityInRange := by
  refine fun bit c => ⟨fun h => ?_, byteOf_toNat _⟩
  obtain ⟨-, -, -, -, hp0, hp1, -⟩ := decodeNext_inRange h bit
  exact BitVec.toInt_ofInt_eq_self (by decide) hp0 (by omega)

/-! ### DECB's checks and its effect (R127, R128) -/

/-- Settles O38: the cases of a buffer command, with R127's COUNT condition. -/
theorem decbRejects : Obligations.DecbRejects := by
  intro s hv
  obtain ⟨hcount, hin, hout, hranges⟩ := bufferCommand_cases (nin := s.decodeIn) (nout := s.decodeOut) hv
    (decodeCountBad s.bufferOperands) decodeCounts_nonneg (decodeBytes s.decodeIn.toNat)
  simp only [← Bool.not_eq_true, decodeCountBad_iff] at hcount hin hout hranges
  refine ⟨hcount, hin, hout, fun hc hi ho => ?_⟩
  obtain ⟨hoverlap, hunbacked, -⟩ := hranges hc hi ho
  exact ⟨hoverlap, hunbacked⟩

/-- DECB reads COUNT code bytes (R63, R83). -/
theorem State.decodeIn_eq (s : State) : s.decodeIn = s.count.toInt := rfl

/-- Settles O39: the trace of contexts over all the bits, whose bytes the decode loop stores in order. -/
theorem decbDecodesABuffer : Obligations.DecbDecodesABuffer := by
  intro s ha hwf
  obtain ⟨-, -, hi, ho, -⟩ := id ha
  obtain ⟨⟨hin, -⟩, hout, -⟩ := ranges_in_space hi ho
  obtain ⟨hctx, hbyte, hother⟩ := decodeBytes_spec hwf _ _ _ (decodeAccepted_disjoint ha)
  obtain ⟨c, h0, hstep, hlast, hsample⟩ := decodeContext_trace (s.loadBits s.inAddr s.decodeIn.toNat) s.ctx
  rw [loadBits_length] at hlast
  rw [← State.decodeIn_eq]
  refine ⟨_, c, execDecb_accepted ha, h0, fun g hg k hk => ?_, fun j hj => ?_, hother, hin, hout, ?_, fun hzero => ?_⟩
  · have hlen : 8 * g + k < (s.loadBits s.inAddr s.decodeIn.toNat).length := by
      rw [loadBits_length]
      omega
    rw [hstep _ hlen, loadBits_getElem s _ _ hg hk]
  · rw [State.accept_mem, hbyte j hj, hsample j (by rwa [loadBits_length])]
  · rw [decodeBytes_eq, hctx, ← hlast]
    rfl
  · have hk : s.decodeIn.toNat = 0 := by rw [State.decodeIn_eq, hzero]; rfl
    rw [hk]
    exact ⟨rfl, rfl⟩

/-! ### Parts of a buffer (R131) -/

theorem decodeAccepted_offsets_nonneg {s : State} (ha : DecodeAccepted s) :
    0 ≤ s.inOff.toInt ∧ 0 ≤ s.outOff.toInt := by
  obtain ⟨-, -, hi, ho, -⟩ := ha
  simp only [InputOutOfBounds, OutputOutOfBounds, not_or, not_lt] at hi ho
  exact ⟨hi.1, ho.1⟩

/-- `u` has the buffers and the RAM of `s`, and DECB in `u` is over the `m` code bytes that follow the first `k` of DECB
in `s`. -/
structure DecodePart (s u : State) (k m : Nat) : Prop where
  inBase : u.inBase = s.inBase
  inLen : u.inLen = s.inLen
  outBase : u.outBase = s.outBase
  outLen : u.outLen = s.outLen
  ram : u.ram = s.ram
  count : u.count.toInt = m
  inOff : u.inOff.toInt = s.inOff.toInt + k
  outOff : u.outOff.toInt = s.outOff.toInt + 8 * k

namespace DecodePart

variable {s u : State} {k m : Nat}

theorem inInputRange (h : DecodePart s u k m) (hkm : (k + m : Int) ≤ s.count.toInt) {a : Int}
    (ha : InInputRange u u.count.toInt a) : InInputRange s s.count.toInt a := by
  simp only [InInputRange, h.inBase, h.inOff, h.count] at ha ⊢
  omega

theorem inOutputRange (h : DecodePart s u k m) (hkm : (k + m : Int) ≤ s.count.toInt) {a : Int}
    (ha : InOutputRange u (8 * u.count.toInt) a) : InOutputRange s (8 * s.count.toInt) a := by
  simp only [InOutputRange, h.outBase, h.outOff, h.count] at ha ⊢
  omega

/-- Part of an accepted DECB is accepted, if the context is there and not Shared. -/
theorem accepted (h : DecodePart s u k m) (ha : DecodeAccepted s) (hkm : (k + m : Int) ≤ s.count.toInt)
    (hv : u.ctx.valid = true) (hs : ¬ SharedClients u) : DecodeAccepted u := by
  obtain ⟨-, -, hi, ho, hov, hun, -⟩ := ha
  refine ⟨hv, ?_, ?_, ?_, ?_, ?_, hs⟩
  · rw [DecodeCountIllegal, h.count]
    omega
  · simp only [InputOutOfBounds, h.inBase, h.inLen, h.inOff, h.count] at hi ⊢
    omega
  · simp only [OutputOutOfBounds, h.outBase, h.outLen, h.outOff, h.count] at ho ⊢
    omega
  · rintro ⟨a, hin, hout⟩
    exact hov ⟨a, h.inInputRange hkm hin, h.inOutputRange hkm hout⟩
  · rintro ⟨a, hrange, hb⟩
    rw [IsBacked, h.ram] at hb
    exact hun ⟨a, hrange.imp (h.inInputRange hkm) (h.inOutputRange hkm), hb⟩

/-- The ranges of the part start past the `k` code bytes and their samples (R63). -/
theorem addresses (h : DecodePart s u k m) (ha : DecodeAccepted s) :
    u.inAddr = s.inAddr + k ∧ u.outAddr = s.outAddr + 8 * k := by
  obtain ⟨hi0, ho0⟩ := decodeAccepted_offsets_nonneg ha
  simp only [State.inAddr, State.outAddr, State.bufferOperands, h.inBase, h.outBase, h.inOff, h.outOff]
  omega

/-- DECB over the part runs the decode loop over its bytes. -/
theorem exec_decb (h : DecodePart s u k m) (ha : DecodeAccepted s) (hkm : (k + m : Int) ≤ s.count.toInt)
    (hv : u.ctx.valid = true) (hs : ¬ SharedClients u) :
    exec .decb u = .next (decodeBytes m (s.inAddr + k) (s.outAddr + 8 * k) u).accept := by
  obtain ⟨hin, hout⟩ := h.addresses ha
  have hm : u.decodeIn.toNat = m := by rw [State.decodeIn_eq, h.count, Int.toNat_natCast]
  rw [execDecb_accepted (h.accepted ha hkm hv hs), hin, hout, hm]

end DecodePart

/-- The state `u` for the rest of DECB in `s`: COUNT `m`, and the offsets of `s` past `k` bytes and their samples. -/
def State.decodeRest (s u : State) (k m : Nat) : State :=
  { u with
    count := BitVec.ofNat 32 m, inOff := s.inOff + BitVec.ofNat 32 k, outOff := s.outOff + BitVec.ofNat 32 (8 * k) }

/-- DECB with another COUNT is over the first code bytes. -/
theorem decodePart_withCount (s : State) {m : Nat} (hm : m < 2 ^ 31) : DecodePart s (s.withCount m) 0 m where
  inBase := rfl
  inLen := rfl
  outBase := rfl
  outLen := rfl
  ram := rfl
  count := toInt_ofNat_of_lt hm
  inOff := (Int.add_zero _).symm
  outOff := (Int.add_zero _).symm

/-- After any command on `s`, with whatever COUNT, the rest of its buffer is a part of it. -/
theorem decodePart_decodeRest {s u : State} {i : Instr} {n k m : Nat} (ha : DecodeAccepted s) (hm : m < 2 ^ 31)
    (hin : s.inOff.toInt + k < 2 ^ 31) (hout : s.outOff.toInt + 8 * k < 2 ^ 31)
    (hu : exec i (s.withCount n) = .next u) : DecodePart s (s.decodeRest u k m) k m := by
  obtain ⟨hi0, ho0⟩ := decodeAccepted_offsets_nonneg ha
  have hframe := exec_frame hu
  exact
    { inBase := congrArg (·.inBase) hframe
      inLen := congrArg (·.inLen) hframe
      outBase := congrArg (·.outBase) hframe
      outLen := congrArg (·.outLen) hframe
      ram := congrArg (·.ram) hframe
      count := toInt_ofNat_of_lt hm
      inOff := toInt_add_ofNat hi0 hin
      outOff := toInt_add_ofNat ho0 hout }

/-- Settles O40: both parts are accepted, and the decode loop splits between them. -/
theorem decbChunkingEquivalence : Obligations.DecbChunkingEquivalence := by
  intro s t n₁ n₂ hlt hin hout hcount ht hok
  obtain ⟨ha, rfl⟩ := execDecb_ok ht hok
  have hn : s.count.toInt = (n₁ + n₂ : Nat) := by rw [hcount, toInt_ofNat_of_lt hlt]
  have hk : s.decodeIn.toNat = n₁ + n₂ := by rw [State.decodeIn_eq, hn, Int.toNat_natCast]
  obtain ⟨hv, -, -, -, -, -, hs⟩ := id ha
  have hu := (decodePart_withCount s (m := n₁) (by omega)).exec_decb ha (by omega) hv hs
  have hvu := exec_keeps_valid hu hv
  have hsu := exec_ok_not_shared hu nofun rfl
  have hrest := (decodePart_decodeRest (m := n₂) ha (by omega) hin hout hu).exec_decb ha (by omega) hvu hsu
  obtain ⟨hctx, hmem⟩ := decodeBytes_congr n₁ s.inAddr s.outAddr (s := s.withCount n₁) (u := s) rfl rfl
  rw [hk, decodeBytes_add]
  exact ⟨_, _, hu, rfl, hrest, rfl, decodeBytes_congr _ _ _ hctx hmem⟩

/-! ### Byte by byte (R126, R131) -/

theorem loadBits_append (s : State) (a m n : Nat) :
    s.loadBits a (m + n) = s.loadBits a m ++ s.loadBits (a + m) n := by
  simp only [State.loadBits, State.loadBytes_append, List.flatMap_append]

theorem loadBits_one (s : State) (a : Nat) : s.loadBits a 1 = bitsOfByte (s.mem.read a) := rfl

/-- The sample bytes of code byte `g` are emitted from the context that the code bytes before it left (R128). -/
theorem decodeSamples_byte (s : State) (c : Context) (a : Nat) {g k j : Nat} (hg : g < k) (hj : j < 8) :
    (decodeSamples (s.loadBits a k) c)[8 * g + j]'(by simp; omega) =
      (decodeSamples (bitsOfByte (s.mem.read (a + g))) (decodeContext (s.loadBits a g) c))[j]'(by simpa using hj) := by
  obtain ⟨r, rfl⟩ := Nat.exists_eq_add_of_le (show g + 1 ≤ k by omega)
  simp only [Nat.add_assoc g, loadBits_append, loadBits_one, decodeSamples_append]
  rw [List.getElem_append_right (by simp), List.getElem_append_left (by simp; omega)]
  simp

/-- DEC8's operand is the code byte that a host loads into DIN_LO (R79). -/
theorem dinBits_of_byte {s : State} {b : Byte} (h : s.dinLo = b.setWidth 32) : s.dinBits = bitsOfByte b := by
  refine List.ext_getElem (by simp) fun j hj _ => ?_
  have hj32 : j < 32 := by rw [dinBits_length] at hj; omega
  rw [dinBits_getElem, bitsOfByte_getElem, h, BitVec.getLsbD_setWidth, decide_eq_true hj32, Bool.true_and]

/-- The state with a code byte in DIN_LO, as a host loads it before DEC8 (R79). -/
def State.withCodeByte (s : State) (b : Byte) : State := { s with dinLo := b.setWidth 32 }

/-- The next state of an accepted DEC8 of a code byte (R126). -/
def State.dec8Next (s : State) (b : Byte) : State :=
  (((s.withCodeByte b).setCtx (decodeContext (bitsOfByte b) s.ctx)).setDout
    (doutOfSamples (decodeSamples (bitsOfByte b) s.ctx))).accept

theorem exec_dec8Next {s : State} (hv : s.ctx.valid = true) (hs : ¬ SharedClients s) (b : Byte) :
    exec .dec8 (s.withCodeByte b) = .next (s.dec8Next b) := by
  rw [execDec8_accepted (s := s.withCodeByte b) hv hs, dinBits_of_byte rfl]
  rfl

/-- Lane `j` of DOUT after DEC8 is its sample byte `j` (R57, R82). -/
theorem dec8Next_lane (s : State) (b : Byte) {j : Nat} (hj : j < 8) :
    (if j < 4 then (s.dec8Next b).doutLo.extractLsb' (8 * j) 8
      else (s.dec8Next b).doutHi.extractLsb' (8 * (j - 4)) 8) =
      (decodeSamples (bitsOfByte b) s.ctx)[j]'(by simpa using hj) := by
  rw [State.dec8Next, accept_setDout_setCtx, ← laneOf_words _ hj, doutOfSamples_lane hj]

/-- The run of DEC8 commands over the code bytes of DECB's input range (R131). -/
def State.dec8Run (s : State) : Nat → State
  | 0 => s
  | g + 1 => (s.dec8Run g).dec8Next (s.mem.read (s.inAddr + g))

/-- Each DEC8 of the run finds what the gates of the next one ask for. -/
theorem dec8Run_gates {s : State} (hv : s.ctx.valid = true) (hs : ¬ SharedClients s) (g : Nat) :
    (s.dec8Run g).ctx.valid = true ∧ ¬ SharedClients (s.dec8Run g) := by
  induction g with
  | zero => exact ⟨hv, hs⟩
  | succ g ih =>
    have hnext := exec_dec8Next ih.1 ih.2 (s.mem.read (s.inAddr + g))
    exact ⟨exec_keeps_valid hnext ih.1, exec_ok_not_shared hnext nofun rfl⟩

theorem exec_dec8Run {s : State} (hv : s.ctx.valid = true) (hs : ¬ SharedClients s) (g : Nat) :
    exec .dec8 ((s.dec8Run g).withCodeByte (s.mem.read (s.inAddr + g))) = .next (s.dec8Run (g + 1)) :=
  have ⟨hvalid, hshared⟩ := dec8Run_gates hv hs g
  exec_dec8Next hvalid hshared _

/-- After `g` code bytes the context has run over their bits (R106). -/
theorem dec8Run_ctx (s : State) (g : Nat) : (s.dec8Run g).ctx = decodeContext (s.loadBits s.inAddr g) s.ctx := by
  induction g with
  | zero => rfl
  | succ g ih =>
    rw [loadBits_append, loadBits_one, decodeContext_append, ← ih]
    rfl

/-- Settles O41: the run of DEC8 over the code bytes, with DECB's sample bytes and contexts. -/
theorem decbIsDec8ByteByByte : Obligations.DecbIsDec8ByteByByte := by
  intro s t ha hwf ht
  obtain ⟨hv, -, -, -, -, -, hs⟩ := id ha
  obtain ⟨hctx, hbyte, -⟩ := decodeBytes_spec hwf _ _ _ (decodeAccepted_disjoint ha)
  rw [execDecb_accepted ha] at ht
  cases ht
  rw [← State.decodeIn_eq]
  refine ⟨s.dec8Run, rfl, fun g hg => ⟨exec_dec8Run hv hs g, fun j hj => ?_⟩, ?_⟩
  · rw [State.accept_mem, hbyte _ (by omega), decodeSamples_byte s _ _ hg hj, ← dec8Run_ctx, State.dec8Run,
      dec8Next_lane _ _ hj]
  · rw [State.accept_ctx, hctx, dec8Run_ctx]

end Sys2Proof.Machine

/-! # Rules over all commands and over refusals (60_exceptions.md) -/

/-! ## Idle and marked steps (R142, R149, R155) -/

namespace Sys2Proof.Machine

theorem step_idle {s : State} (hp : s.pending = []) (hm : s.refusedMark = none) : step s = .next s := by
  simp [step, hostStep, hm, hp]

/-- A marked state only refuses, a waiting reset included. -/
theorem step_marked {s : State} {r : Refusal} (hm : s.refusedMark = some r) : step s = .refused r := by
  simp [step, hostStep, hm]

theorem stepMarked_refused {s : State} {r : Refusal} (h : step s = .refused r) :
    stepMarked s = { s with refusedMark := some r } := by
  rw [stepMarked, h]

theorem stepMarked_marked {s : State} {r : Refusal} (hm : s.refusedMark = some r) : stepMarked s = s := by
  rw [stepMarked_refused (step_marked hm), ← hm]

theorem runMarked_of_fixed {s : State} (h : stepMarked s = s) (k : Nat) : runMarked k s = s := by
  induction k with
  | zero => rfl
  | succ k ih => rw [runMarked, h, ih]

/-- Settles O13. -/
theorem idleStepRetainsAllState : Obligations.IdleStepRetainsAllState :=
  fun _ => step_idle

/-- Settles O14: a marked state is a fixed point of the marked step. -/
theorem refusedMarkStays : Obligations.RefusedMarkStays := by
  refine fun s r => ⟨fun _ h => stepMarked_refused h, fun hm k => ?_⟩
  have hfix : runMarked k s = s := runMarked_of_fixed (stepMarked_marked hm) k
  refine ⟨hfix, fun ⟨_, hnone⟩ => ?_⟩
  rw [hfix, hm] at hnone
  cases hnone

end Sys2Proof.Machine

/-! ## The frame of a command (R137, R151) -/

namespace Sys2Proof.Machine

/-- A command word that answers a next state was rejected and wrote STATUS alone, or was accepted with STATUS OK. -/
theorem runCommand_status {w : Word} {s t : State} (h : runCommand w s = .next t) :
    (∃ k c, t = s.raise k c) ∨ t.status = Status.reset := by
  cases hd : decode w with
  | error e =>
    rw [runCommand_error hd] at h
    cases h
    exact .inl ⟨_, _, rfl⟩
  | ok i =>
    rw [runCommand_ok hd] at h
    rcases exec_status h with ⟨k, c, -, ht⟩ | hok
    · exact .inl ⟨k, c, ht⟩
    · exact .inr hok

/-- Settles O44: an accepted command's kind is OK, and a rejection is a `raise`. -/
theorem rejectionIsAtomic : Obligations.RejectionIsAtomic := by
  intro w s t h hk
  rcases runCommand_status h with ⟨k, c, rfl⟩ | hok
  · rfl
  · rw [hok] at hk
    exact absurd rfl hk

/-- Only an accepted ENC8 or DEC8 writes DOUT (R151). -/
theorem exec_keeps_dout {i : Instr} {s t : State} (h : exec i s = .next t)
    (hi : (i ≠ .enc8 ∧ i ≠ .dec8) ∨ t.status.kind ≠ .ok) : t.doutLo = s.doutLo ∧ t.doutHi = s.doutHi := by
  rcases exec_status h with ⟨k, c, -, rfl⟩ | hst
  · exact ⟨rfl, rfl⟩
  have hk : t.status.kind = .ok := by rw [hst]; rfl
  obtain ⟨henc8, hdec8⟩ := hi.resolve_right (not_not.mpr hk)
  cases i with
  | init v => rw [execInit_next] at h; cases h; exact ⟨rfl, rfl⟩
  | enc8 => exact absurd rfl henc8
  | dec8 => exact absurd rfl hdec8
  | encb =>
    obtain ⟨-, rfl⟩ := execEncb_ok h hk
    rw [encodeGroups_eq]
    exact ⟨rfl, rfl⟩
  | decb =>
    obtain ⟨-, rfl⟩ := execDecb_ok h hk
    rw [decodeBytes_eq]
    exact ⟨rfl, rfl⟩

/-- Settles O45: by the frame of every command. -/
theorem commandsLeaveOperandRegisters : Obligations.CommandsLeaveOperandRegisters := by
  intro i s t h
  refine ⟨?_, ?_, ?_, ?_, ?_, ?_, ?_, ?_, ?_, ?_, exec_keeps_dout h⟩ <;> rw [exec_frame h]

end Sys2Proof.Machine

/-! ## No command reads STATUS (R150)

Every branch of a command that answers a next state overwrites STATUS, and no check and no loop reads it. -/

namespace Sys2Proof.Machine

theorem sameInputs_setStatus (s : State) (old : Status) : SameInputs (s.setStatus old) s :=
  ⟨rfl, rfl, rfl, rfl, rfl, rfl, rfl, rfl, rfl, rfl, rfl, Iff.rfl⟩

/-- A buffer command does not read STATUS if its execution does not. -/
theorem bufferCommand_setStatus {run : Nat → Nat → State → State} {old : Status}
    (hrun : ∀ inA outA s, run inA outA (s.setStatus old) = (run inA outA s).setStatus old) (bad : Bool)
    (nin nout : Int) (s : State) : bufferCommand bad nin nout run (s.setStatus old) =
      bufferCommand bad nin nout run s := by
  rcases bufferCommand_alike (sameInputs_setStatus s old) bad nin nout run with
    ⟨k, c, -, h, h'⟩ | ⟨r, h, h'⟩ | ⟨h, h'⟩
  · rw [h, h']
    rfl
  · rw [h, h']
  · rw [h, h', hrun]
    rfl

theorem encodeGroups_setStatus (k inA outA : Nat) (s : State) (old : Status) :
    encodeGroups k inA outA (s.setStatus old) = (encodeGroups k inA outA s).setStatus old := by
  induction k generalizing inA outA s with
  | zero => rfl
  | succ k ih => exact ih _ _ (encodeGroupStep inA outA s)

theorem State.storeBytes_setStatus (s : State) (a : Nat) (vs : List Byte) (old : Status) :
    (s.setStatus old).storeBytes a vs = (s.storeBytes a vs).setStatus old := by
  induction vs generalizing s a with
  | nil => rfl
  | cons v vs ih => exact ih (s.storeByte a v) _

theorem decodeBytes_setStatus (k inA outA : Nat) (s : State) (old : Status) :
    decodeBytes k inA outA (s.setStatus old) = (decodeBytes k inA outA s).setStatus old := by
  induction k generalizing inA outA s with
  | zero => rfl
  | succ k ih =>
    have hstep : decodeByteStep inA outA (s.setStatus old) = (decodeByteStep inA outA s).setStatus old :=
      State.storeBytes_setStatus (s.setCtx _) outA _ old
    rw [decodeBytes, hstep, ih, decodeBytes]

/-- ENC8 and DEC8 have one shape, whose gates do not read STATUS and whose two endings overwrite it. -/
theorem exec_setStatus_of_group {i : Instr} {s : State} {old : Status} {f : State → Context} {g : State → DWord}
    (he : ∀ s, exec i s = s.withContext fun s => s.unlessShared fun s => (s.setCtx (f s)).setDout (g s))
    (hf : f (s.setStatus old) = f s) (hg : g (s.setStatus old) = g s) : exec i (s.setStatus old) = exec i s := by
  simp only [he, State.withContext, State.unlessShared, hf, hg]
  rfl

theorem exec_setStatus (i : Instr) (s : State) (old : Status) : exec i (s.setStatus old) = exec i s := by
  have hsame := sameInputs_setStatus s old
  cases i with
  | init v => rfl
  | enc8 =>
    exact exec_setStatus_of_group (fun _ => rfl) (by rw [hsame.dinSamples, State.setStatus_ctx])
      (by rw [hsame.dinSamples, State.setStatus_ctx])
  | dec8 =>
    exact exec_setStatus_of_group (fun _ => rfl) (by rw [hsame.dinBits, State.setStatus_ctx])
      (by rw [hsame.dinBits, State.setStatus_ctx])
  | encb =>
    simp only [exec, execEncb, State.encodeIn, State.encodeOut, hsame.bufferOperands]
    exact bufferCommand_setStatus (fun _ _ _ => encodeGroups_setStatus _ _ _ _ _) _ _ _ s
  | decb =>
    simp only [exec, execDecb, State.decodeIn, State.decodeOut, hsame.bufferOperands]
    exact bufferCommand_setStatus (fun _ _ _ => decodeBytes_setStatus _ _ _ _ _) _ _ _ s

theorem runCommand_setStatus (w : Word) (s : State) (old : Status) :
    runCommand w (s.setStatus old) = runCommand w s := by
  cases hd : decode w with
  | ok i => rw [runCommand_ok hd, runCommand_ok hd, exec_setStatus]
  | error e => rw [runCommand_error hd, runCommand_error hd]; rfl

/-- Settles O46: no command reads STATUS, and each one that answers a next state ends with BUSY = 0. -/
theorem statusIsNotSticky : Obligations.StatusIsNotSticky := by
  refine fun w s t old h => ⟨(runCommand_setStatus w s old).trans h, ?_⟩
  rcases runCommand_status h with ⟨k, c, rfl⟩ | hok
  · rfl
  · rw [hok]
    rfl

end Sys2Proof.Machine

/-! ## How a command can end (R132, R141, R152) -/

namespace Sys2Proof.Machine

/-- The endings of a command: a STATUS outcome, or a refusal of R141 that a command can meet. -/
abbrev CommandEnds (o : Outcome) : Prop :=
  (∃ t, o = .next t) ∨ o = .refused .overlap ∨ o = .refused .unbacked ∨ o = .refused .shared

theorem withContext_ends {s : State} {command : State → Outcome} (h : CommandEnds (command s)) :
    CommandEnds (s.withContext command) := by
  cases hv : s.ctx.valid with
  | true => rwa [State.withContext_valid hv]
  | false => exact .inl ⟨_, State.withContext_invalid hv command⟩

theorem unlessShared_ends (s : State) (command : State → State) : CommandEnds (s.unlessShared command) := by
  by_cases hs : SharedClients s
  · exact .inr (.inr (.inr (State.unlessShared_of_shared hs command)))
  · exact .inl ⟨_, State.unlessShared_of_not hs command⟩

theorem bufferCommand_ends (bad : Bool) (nin nout : Int) (run : Nat → Nat → State → State) (s : State) :
    CommandEnds (bufferCommand bad nin nout run s) := by
  refine withContext_ends ?_
  split
  · split
    · exact .inr (.inl rfl)
    · split
      · exact .inr (.inr (.inl rfl))
      · exact unlessShared_ends s _
  · exact .inl ⟨_, rfl⟩

theorem exec_ends (i : Instr) (s : State) : CommandEnds (exec i s) := by
  cases i with
  | init v => exact .inl ⟨_, execInit_next v s⟩
  | enc8 => exact withContext_ends (command := fun s => s.unlessShared _) (unlessShared_ends s _)
  | dec8 => exact withContext_ends (command := fun s => s.unlessShared _) (unlessShared_ends s _)
  | encb => exact bufferCommand_ends _ _ _ _ s
  | decb => exact bufferCommand_ends _ _ _ _ s

/-- On a context that is not shared only ENCB and DECB can be refused. -/
theorem exec_answers {i : Instr} {s : State} (hs : ¬ SharedClients s) (hencb : i ≠ .encb) (hdecb : i ≠ .decb) :
    ∃ t, exec i s = .next t := by
  by_cases hi : ∃ v, i = .init v
  · obtain ⟨v, rfl⟩ := hi
    exact ⟨_, execInit_next v s⟩
  cases hv : s.ctx.valid with
  | false => exact ⟨_, exec_noContext hv (not_exists.mp hi)⟩
  | true =>
    cases i with
    | init v => exact absurd ⟨v, rfl⟩ hi
    | enc8 => exact ⟨_, execEnc8_accepted hv hs⟩
    | dec8 => exact ⟨_, execDec8_accepted hv hs⟩
    | encb => exact absurd rfl hencb
    | decb => exact absurd rfl hdecb

/-- Settles O47: a legal word ends as its command does, and an illegal one in INVALID_COMMAND. -/
theorem commandsNeverHang : Obligations.CommandsNeverHang := by
  intro w s
  cases hd : decode w with
  | error e =>
    have hnext := runCommand_error hd s
    exact ⟨.inl ⟨_, hnext⟩, fun _ _ _ => ⟨_, hnext⟩⟩
  | ok i =>
    rw [runCommand_ok hd]
    exact ⟨exec_ends i s, fun hs hencb hdecb => exec_answers hs (mt (congrArg _) hencb) (mt (congrArg _) hdecb)⟩

end Sys2Proof.Machine
